-- ==== Sys2Proof/Word.lean ====
section
/-! DEFINITION. The words of the block: the 32-bit pattern, the 64-bit command word, the 16-bit index (00_scope R10, R11). -/

namespace Sys2Proof

/-- A 32-bit pattern: a binary32 value (`f32`), a table entry, or an unsigned 32-bit integer (R11). -/
abbrev Word := BitVec 32

/-- A command word, 64 bits, bit 0 least significant (R61). -/
abbrev Command := BitVec 64

/-- The index field of a command word, unsigned, 16 bits (R61). -/
abbrev Index := BitVec 16

end Sys2Proof
end

