-- ==== Sys2Proof/Syntax.lean ====
section
/-! DEFINITION. The commands of WTOSC-1, one constructor per row of the opcode table (30_encoding R64). -/

namespace Sys2Proof

/-- A command (R64). Operand fields are raw: any `data` pattern is accepted (R63). -/
inductive Instr where
  /-- `GET`, get one sample (R166). -/
  | get
  /-- `SETF hz`, set frequency (R131). -/
  | setf (hz : Word)
  /-- `WRT idx, data`, write one table entry (R111). -/
  | wrt (idx : Index) (data : Word)
  deriving DecidableEq, Repr

end Sys2Proof
end

