-- ==== Sys2Proof/Decode.lean ====
section
/-! DEFINITION. Decoding of command words, total on all 2^64 of them (30_encoding R61, R64, R65, R67), and the encoder. -/

namespace Sys2Proof

/-- `op = w[63:61]` (R61). -/
def opField (w : Command) : BitVec 3 := w.extractLsb' 61 3

/-- `rsv = w[60:48]` (R61). -/
def rsvField (w : Command) : BitVec 13 := w.extractLsb' 48 13

/-- `idx = w[47:32]` (R61). -/
def idxField (w : Command) : Index := w.extractLsb' 32 16

/-- `data = w[31:0]` (R61). -/
def dataField (w : Command) : Word := w.extractLsb' 0 32

/-- Why a word is no command: the cases of R65. -/
inductive DecodeError where
  /-- (b) the `rsv` field is not zero, whatever `op` is. -/
  | reservedField
  /-- (a) `op` is `0b000` or `0b100` to `0b111`. -/
  | reservedOp
  /-- (c) a GET whose `idx` or `data` is not zero. -/
  | getOperand
  /-- (d) a SETF whose `idx` is not zero. -/
  | setfIndex
  deriving DecidableEq, Repr

/-- The command a word stands for, or why it stands for none; the tests in the order of R67, which is the priority of
R224. The range of a WRT's index is left to the command (R111; log 9). -/
def decode (w : Command) : Except DecodeError Instr :=
  if rsvField w ≠ 0 then .error .reservedField
  else if opField w = 0b001#3 then
    if idxField w ≠ 0 ∨ dataField w ≠ 0 then .error .getOperand else .ok .get
  else if opField w = 0b010#3 then
    if idxField w ≠ 0 then .error .setfIndex else .ok (.setf (dataField w))
  else if opField w = 0b011#3 then .ok (.wrt (idxField w) (dataField w))
  else .error .reservedOp

/-- The five results of the decoding algorithm of R67. -/
inductive Decoded where
  | illegal
  | badIndex (idx : Index)
  | get
  | setf (hz : Word)
  | wrt (idx : Index) (data : Word)
  deriving DecidableEq, Repr

/-- R67 as the spec writes it, with the index range decided in the decoder: `decode` with the range test of R111 put
after it. -/
def decodeFor (tableSize : Nat) (w : Command) : Decoded :=
  match decode w with
  | .error _ => .illegal
  | .ok .get => .get
  | .ok (.setf hz) => .setf hz
  | .ok (.wrt idx data) => if idx.toNat ≥ tableSize then .badIndex idx else .wrt idx data

/-- A word from its four fields (R61). -/
def packFields (op : BitVec 3) (rsv : BitVec 13) (idx : Index) (data : Word) : Command :=
  op ++ rsv ++ idx ++ data

/-- The word of a command (R64): `rsv` and every unused field are zero. -/
def encode : Instr → Command
  | .get => packFields 0b001#3 0 0 0
  | .setf hz => packFields 0b010#3 0 0 hz
  | .wrt idx data => packFields 0b011#3 0 idx data

/-- The `match` column of R64. -/
def rowMatch : Instr → Command
  | .get => 0x2000_0000_0000_0000#64
  | .setf _ => 0x4000_0000_0000_0000#64
  | .wrt _ _ => 0x6000_0000_0000_0000#64

/-- The `mask` column of R64. -/
def rowMask : Instr → Command
  | .get => 0xFFFF_FFFF_FFFF_FFFF#64
  | .setf _ => 0xFFFF_FFFF_0000_0000#64
  | .wrt _ _ => 0xFFFF_0000_0000_0000#64

/-- The command word whose low `nbits` bits are `w`'s and whose other bits are zero. -/
def commandOfBits (nbits w : Nat) : Command := BitVec.ofNat 64 (w % 2 ^ nbits)

/-- What the decoder reads from a word given as the opcode table numbers it: every command is one 64-bit word. -/
def decodeTableWord (nbits w : Nat) : Option Instr :=
  match decode (commandOfBits nbits w) with
  | .ok i => some i
  | .error _ => none

end Sys2Proof
end

