-- ==== Sys2Proof/Machine/Format.lean ====
section
/-! DEFINITION. The binary32 format (44_float_arithmetic R190): fields, constants, and the exact value of a pattern. -/

namespace Sys2Proof.Machine

/-- `+0` (R11). -/
def posZero : Word := 0x00000000#32
/-- `−0` (R11). -/
def negZero : Word := 0x80000000#32
/-- `+inf` (R11). -/
def posInf : Word := 0x7F800000#32
/-- `−inf` (R11). -/
def negInf : Word := 0xFF800000#32
/-- `cNaN`, the canonical NaN (R11, R196). -/
def cNaN : Word := 0x7FC00000#32
/-- `1.0` (R11). -/
def one32 : Word := 0x3F800000#32

/-- Sign bit `w[31]` (R190). -/
def signBit (w : Word) : Bool := w.getLsbD 31

/-- Biased exponent `w[30:23]` (R190). -/
def expField (w : Word) : Nat := w.toNat / 2 ^ 23 % 2 ^ 8

/-- Fraction `w[22:0]` (R190). -/
def fracField (w : Word) : Nat := w.toNat % 2 ^ 23

/-- The magnitude of the value with exponent field `e` and fraction `f`, counted in units of `2^−149`, the smallest
positive value. Every finite binary32 value is a whole number of these units (R190; log 10). -/
def magOf (e f : Nat) : Nat := if e = 0 then f else (2 ^ 23 + f) * 2 ^ (e - 1)

/-- The magnitude of a pattern in units of `2^−149`. An infinity gets a number above that of every finite pattern. -/
def mag (w : Word) : Nat := magOf (expField w) (fracField w)

/-- The value of a pattern, with its sign, in units of `2^−149`. -/
def units (w : Word) : Int := if signBit w then -(mag w : Int) else (mag w : Int)

/-- How many units of `2^−149` make 1. -/
def unitsPerOne : Nat := 2 ^ 149

/-- The real value of a finite pattern (R190). -/
def value (w : Word) : Rat := (units w : Rat) / (unitsPerOne : Rat)

/-- A pattern from a sign and the 31 bits below it. -/
def withSign (neg : Bool) (m : Nat) : Word :=
  if neg then BitVec.ofNat 32 (m + 2 ^ 31) else BitVec.ofNat 32 m

/-- The pattern with its sign bit inverted (R193). -/
def negate (w : Word) : Word := w ^^^ 0x80000000#32

end Sys2Proof.Machine
end

