-- ==== Sys2Proof/Machine/Flags.lean ====
section
/-! DEFINITION. The block has no flags and keeps no IEEE exception flag (10_state R26, 44 R198): no operation here writes
one. What a flag would tell is asked of a pattern when it is needed: the predicates of R191 and the comparisons of R200. -/

namespace Sys2Proof.Machine

/-- `isNaN(w)`: `e = 255` and `f ≠ 0` (R191). -/
def isNaN (w : Word) : Bool := expField w == 255 && fracField w != 0

/-- `isInf(w)`: `e = 255` and `f = 0` (R191). -/
def isInf (w : Word) : Bool := expField w == 255 && fracField w == 0

/-- `isFinite(w)`: `e ≠ 255` (R191). -/
def isFinite (w : Word) : Bool := expField w != 255

/-- `isZero(w)`: `e = 0` and `f = 0` (R191). -/
def isZero (w : Word) : Bool := expField w == 0 && fracField w == 0

/-- `a < b` (R200): by value, false when either is a NaN. -/
def ltF (a b : Word) : Bool := !isNaN a && !isNaN b && decide (units a < units b)

/-- `a > b` (R200). -/
def gtF (a b : Word) : Bool := ltF b a

/-- `a == b` (R200): both zeros are equal, nothing equals a NaN. -/
def eqF (a b : Word) : Bool := !isNaN a && !isNaN b && decide (units a = units b)

/-- `a >= b` (R200). -/
def geF (a b : Word) : Bool := gtF a b || eqF a b

end Sys2Proof.Machine
end

