-- ==== Sys2Proof/Machine/Arith.lean ====
section
/-! DEFINITION. binary32 arithmetic (44_float_arithmetic R192 to R199). Exact results are computed on integers and
narrowed once, by `round32` (R204). -/

namespace Sys2Proof.Machine

/-- How many binary digits the whole number `q` has beyond the 24 of a significand. -/
def excessBits (q : Nat) : Nat := Nat.log2 q - 23

/-- `num / den` rounded to the nearest whole number, ties to even. -/
def roundQuotient (num den : Nat) : Nat :=
  let q := num / den
  let r := num % den
  if den < 2 * r ∨ (2 * r = den ∧ q % 2 = 1) then q + 1 else q

/-- The low 31 bits of the binary32 value nearest to the magnitude `num / den`, in units of `2^−149`; ties to even; the
pattern of infinity from `2^128 − 2^103` on (R192). The significand is rounded at the weight of its 24th digit, or at one
unit in the subnormal range (R197); a carry out of the fraction steps the exponent field by the addition. -/
def roundMag (num den : Nat) : Nat :=
  let k := excessBits (num / den)
  min (k * 2 ^ 23 + roundQuotient num (den * 2 ^ k)) 0x7F800000

/-- `round32` (R192) of the magnitude `num / den` (in units of `2^−149`) under the sign `neg`. -/
def round32 (neg : Bool) (num den : Nat) : Word := withSign neg (roundMag num den)

/-- `round32` of a whole number of units, which gets `+0` from 0. -/
def roundUnits (x : Int) : Word := round32 (decide (x < 0)) x.natAbs 1

/-- `fadd32(a, b)` (R193). -/
def fadd32 (a b : Word) : Word :=
  if isNaN a || isNaN b then cNaN
  else if isInf a && isInf b then if signBit a = signBit b then a else cNaN
  else if isInf a then a
  else if isInf b then b
  else
    let x := units a + units b
    if x = 0 then if a = negZero ∧ b = negZero then negZero else posZero
    else roundUnits x

/-- `fsub32(a, b) = fadd32(a, b with its sign bit inverted)` (R193). -/
def fsub32 (a b : Word) : Word := fadd32 a (negate b)

/-- `fmul32(a, b)` (R194): a product of units is in units of `2^−298`. -/
def fmul32 (a b : Word) : Word :=
  let sg := signBit a ^^ signBit b
  if isNaN a || isNaN b then cNaN
  else if (isZero a && isInf b) || (isInf a && isZero b) then cNaN
  else if isInf a || isInf b then withSign sg 0x7F800000
  else if isZero a || isZero b then withSign sg 0
  else round32 sg (mag a * mag b) unitsPerOne

/-- `fdiv32(a, b)` (R195). -/
def fdiv32 (a b : Word) : Word :=
  let sg := signBit a ^^ signBit b
  if isNaN a || isNaN b then cNaN
  else if (isZero a && isZero b) || (isInf a && isInf b) then cNaN
  else if isInf a || isZero b then withSign sg 0x7F800000
  else if isZero a || isInf b then withSign sg 0
  else round32 sg (mag a * unitsPerOne) (mag b)

/-- `frem_exact(a, b)` (R199): `a − b × trunc(a / b)`, a zero taking the sign of `a`. The remainder is a binary32 value,
so `round32` returns it unchanged. The rule is for finite `a` and finite `b ≥ 1`, and `advance` calls it for nothing
else. -/
def fremExact (a b : Word) : Word := round32 (signBit a) (mag a % mag b) 1

end Sys2Proof.Machine
end

