-- ==== Sys2Proof/Config.lean ====
section
/-! DEFINITION. What the platform fixes: the parameters of the block (00_scope R8), and the host's builder, which the
spec leaves open (40_wave_table_builder_host R97). -/

namespace Sys2Proof

/-- The parameters of one block (R8). They are constant for the life of the block; no command reads or changes them
(R9, R24). -/
structure Config where
  /-- `TABLE_SIZE`, written `N`. -/
  tableSize  : Nat
  /-- `SAMPLE_RATE`, the strap value. -/
  sampleRate : BitVec 32
  /-- `TABLE_INIT`, the entries the table holds after reset, index 0 first. -/
  tableInit  : List Word
  deriving DecidableEq, Repr

/-- The list has exactly `n` words. (Counted down, so that the check evaluates without building the length.) -/
def hasLength : Nat → List Word → Bool
  | 0, [] => true
  | n + 1, _ :: ws => hasLength n ws
  | _, _ => false

/-- The legal configurations (R8, R24; 93 E5, E6): `1 ≤ N ≤ 65536`, a non-zero rate, and one initial word per entry. -/
def Config.legal (c : Config) : Bool :=
  decide (1 ≤ c.tableSize) && decide (c.tableSize ≤ 65536) && decide (c.sampleRate ≠ 0) &&
    hasLength c.tableSize c.tableInit

/-- The parameters of `State.reset`. `N = 128` is the default of R8. DESIGN CHOICE (log 1, unsafe): the spec gives no
default for `SAMPLE_RATE` and `TABLE_INIT`; 44100 is the first rate of R8's examples, and every entry is `+0`. -/
def Config.standard : Config :=
  { tableSize := 128, sampleRate := 44100#32, tableInit := List.replicate 128 0#32 }

/-- `MAX_OVERTONES` (R8): slots in an overtone set. The block never sees it. -/
def Config.maxOvertones : Nat := 10

/-- An Overtone (R90): a frequency ratio and a relative amplitude, as the binary32 pairs of R73 (log 11). -/
structure Overtone where
  ratio  : Word
  volume : Word
  deriving DecidableEq, Repr

/-- An Overtone Set (R91): ten slots, each absent or holding one Overtone. -/
structure OvertoneSet where
  slots : Vector (Option Overtone) Config.maxOvertones
  deriving DecidableEq, Repr

/-- FREE (R97, D22; log 11): entry `i` of the table of `N` samples that the host computes from the present overtones, in
slot order, of a set that has some (R91). The spec fixes no bit pattern here, so this has no body. -/
opaque Config.hostSample : (tableSize : Nat) → (present : List Overtone) → (i : Nat) → Word

/-- FREE (R94; log 11): the pattern the host's arithmetic yields for `0 × inf`. Only its being a NaN is fixed, and
`Builder.nanEntry` keeps that. -/
opaque Config.hostNaN : (i : Nat) → Word

end Sys2Proof
end

