-- ==== Sys2Proof/Machine/State.lean ====
section
/-! DEFINITION. The state of one block (10_state), what stands at its ports (30_encoding R60, R62), its state after
reset, and the reasons a step can stop. -/

namespace Sys2Proof.Machine

/-- The status of a response (R62): three values, "`3` is never produced" (93 E4). -/
inductive Status where
  | ok
  | illegalCmd
  | badIndex
  deriving DecidableEq, Repr

/-- A response (R62): the status and the data, which together are a 34-bit word. -/
structure Response where
  status : Status
  data   : Word
  deriving DecidableEq, Repr

/-- What the host holds at the ports at one clock edge (R60). Edges at which a command is presented and the block is not
ready change nothing and are left out (log 3). -/
structure PortEdge where
  /-- `rst`. -/
  rst      : Bool
  /-- `cmd`, present when `cmd_valid = 1`. -/
  cmd      : Option Command
  /-- `rsp_ready`. -/
  rspReady : Bool
  deriving DecidableEq, Repr

/-- The wave table as the entries that differ from what they hold after reset: (index, word) pairs, indices strictly
rising (log 2). -/
abbrev Memory := List (Nat × Word)

/-- The state of one block. `phase`, `phaseIncrement`, `table` and `sampleRate` are all the state the spec gives
(10_state); `cfg` is the build's parameters (R8); `inputs` and `responses` are the ports' two ends and the model's own. -/
structure State where
  /-- The parameters (R8), constant. -/
  cfg            : Config
  /-- `phase` (R20). -/
  phase          : Word
  /-- `phase_increment`, `inc` (R21). -/
  phaseIncrement : Word
  /-- `sample_rate` (R24). -/
  sampleRate     : BitVec 32
  /-- `table` (R23), by its differences from `TABLE_INIT`. -/
  table          : Memory
  /-- The edges the host still presents, oldest first. -/
  inputs         : List PortEdge
  /-- The responses produced and not yet delivered, oldest first. -/
  responses      : List Response
  deriving DecidableEq, Repr

/-- Why the machine stops with a fault. Both stand where the spec leaves a helper undefined and says it is never applied
so; the answer of a legal block never is one (log 8). -/
inductive Fault where
  /-- Raised by GET when `phase` is no legal phase: `f32_to_idx` "is not defined for other inputs" (R203). Safe. -/
  | illegalPhase
  /-- Raised by a table access outside `[0, N)`: `MemRead` and `MemWrite` are "never called with `i ≥ N`" (R42, R43).
  Safe. -/
  | noSuchEntry (index : Nat)
  deriving DecidableEq, Repr

/-- Why the model gives no meaning. -/
inductive Refusal where
  /-- A command whose meaning is not written. No arm of `exec` answers it. Safe. -/
  | notModelled (mnemonic : String)
  /-- Raised by `step` when the parameters are not a legal configuration: "a model refuses it" (R24; 93 E5, E6; log 7).
  Safe. -/
  | illegalConfig
  deriving DecidableEq, Repr

/-- `reset(params)` (R30, R31, R32, R251): both registers `+0`, the table as `TABLE_INIT` (no difference listed), the
rate from the strap, nothing undelivered (R250) and no edge pending. -/
def State.resetFor (c : Config) : State :=
  { cfg := c
    phase := 0x00000000#32
    phaseIncrement := 0x00000000#32
    sampleRate := c.sampleRate
    table := []
    inputs := []
    responses := [] }

/-- The machine right after reset, with the parameters of `Config.standard` (log 1). -/
def State.reset : State := State.resetFor Config.standard

end Sys2Proof.Machine
end

