-- ==== Sys2Proof/Machine/Operands.lean ====
section
/-! DEFINITION. Conversions between integers and binary32 (44_float_arithmetic R201 to R203), the constants `Nf` and
`SRf` (00_scope R8), and the legal phases (00_scope R16). -/

namespace Sys2Proof.Machine

/-- `u32_to_f32(u)` (R201). -/
def u32ToF32 (u : BitVec 32) : Word := roundUnits (u.toNat * unitsPerOne : Nat)

/-- `idx_to_f32(i)` (R202), for `0 ≤ i ≤ 65536`, where nothing is rounded away. -/
def idxToF32 (i : Nat) : Word := roundUnits (i * unitsPerOne : Nat)

/-- `Nf`: `N` converted to binary32 (R8). -/
def Nf (tableSize : Nat) : Word := idxToF32 tableSize

/-- `SRf`: the sample rate converted to binary32 (R8, R131). -/
def SRf (sampleRate : BitVec 32) : Word := u32ToF32 sampleRate

/-- A legal phase (R16, R22): `cNaN`, or a finite value with sign bit 0 below `Nf`. -/
def legalPhase (tableSize : Nat) (x : Word) : Bool :=
  x == cNaN || (isFinite x && !signBit x && ltF x (Nf tableSize))

/-- `f32_to_idx(x)` (R203): 0 for `cNaN`, else `floor(x)`; "not defined for other inputs" than legal phases. -/
def f32ToIdx (tableSize : Nat) (x : Word) : Except Fault Nat :=
  if legalPhase tableSize x then
    if isNaN x then .ok 0 else .ok (mag x / unitsPerOne)
  else .error .illegalPhase

/-- `zext_32(idx)` (R13, R223). -/
def zext32 (idx : Index) : Word := idx.setWidth 32

/-- The entry after entry `i` of the circular table (R161, R205): `N − 1` is followed by 0. -/
def nextIndex (tableSize i : Nat) : Nat := (i + 1) % tableSize

end Sys2Proof.Machine
end

