-- ==== Sys2Proof/Machine/Ops.lean ====
section
/-! DEFINITION. The named operations over the state: the wave table (20_memory), the response of a command
(30_encoding R62), the two signalled errors (60_exceptions R221 to R223) and reset (70 R250). There is no return from an
error: "nothing was entered, so there is nothing to return from" (R227). -/

namespace Sys2Proof.Machine

/-- What entry `i` reads as when it is not listed: its contents after reset, `TABLE_INIT[i]` (R31). -/
def Memory.unlisted (c : Config) (i : Nat) : Word := c.tableInit.getD i 0

/-- The word at entry `i`. -/
def Memory.read (c : Config) : Memory → Nat → Word
  | [], i => Memory.unlisted c i
  | (j, v) :: m, i => if i = j then v else Memory.read c m i

/-- List that entry `i` holds `v`, unless that is what it reads as unlisted. -/
def Memory.list (c : Config) (i : Nat) (v : Word) (m : Memory) : Memory :=
  if v = Memory.unlisted c i then m else (i, v) :: m

/-- The table in which entry `i` holds `v` and every other entry what it held (R43), in canonical form. -/
def Memory.write (c : Config) (i : Nat) (v : Word) : Memory → Memory
  | [] => Memory.list c i v []
  | (j, w) :: m =>
    if i < j then Memory.list c i v ((j, w) :: m)
    else if i = j then Memory.list c i v m
    else (j, w) :: Memory.write c i v m

/-- The canonical form above a bound: each index is at least `low`, below `N` and below the next one, and each listed
word differs from the unlisted one. -/
def Memory.wfFrom (c : Config) : Nat → Memory → Bool
  | _, [] => true
  | low, (i, v) :: m =>
    decide (low ≤ i) && decide (i < c.tableSize) && decide (v ≠ Memory.unlisted c i) && Memory.wfFrom c (i + 1) m

/-- The canonical form of the table (log 2): equal tables are equal lists. -/
def Memory.wf (c : Config) (m : Memory) : Bool := Memory.wfFrom c 0 m

/-- `MemRead(i)` (R42): a read has no side effect. -/
def State.memRead (s : State) (i : Nat) : Except Fault Word :=
  if i < s.cfg.tableSize then .ok (Memory.read s.cfg s.table i) else .error (.noSuchEntry i)

/-- `MemWrite(i, v)` (R43). -/
def State.memWrite (s : State) (i : Nat) (v : Word) : Except Fault State :=
  if i < s.cfg.tableSize then .ok { s with table := Memory.write s.cfg i v s.table } else .error (.noSuchEntry i)

/-- The status field of the response word (R62). -/
def Status.code : Status → BitVec 2
  | .ok => 0
  | .illegalCmd => 1
  | .badIndex => 2

/-- The response as its 34-bit word, `{status, data}` (R62). -/
def Response.word (r : Response) : BitVec 34 := r.status.code ++ r.data

/-- `respond(status, data)` (R62): the command's response joins the responses to be delivered, in order (R49). -/
def State.respond (s : State) (status : Status) (data : Word) : State :=
  { s with responses := s.responses ++ [⟨status, data⟩] }

/-- The signalled errors (R222, R223). -/
inductive CommandError where
  | illegalCmd
  | badIndex (idx : Index)
  deriving DecidableEq, Repr

/-- The status code of an error. -/
def CommandError.status : CommandError → Status
  | .illegalCmd => .illegalCmd
  | .badIndex _ => .badIndex

/-- The information an error's response carries: nothing of an illegal word (R222), the index of a bad one (R223). -/
def CommandError.info : CommandError → Word
  | .illegalCmd => 0
  | .badIndex idx => zext32 idx

/-- `raise E(info)` (R221), the block's whole exception mechanism: no state is changed and the command's response is
`respond(code(E), info)`. Nothing is saved, masked or latched and control goes nowhere (R226). -/
def State.raise (s : State) (e : CommandError) : State := s.respond e.status e.info

/-- What a clock edge with `rst = 1` does (R250): the reset state of the block's parameters; undelivered responses are
dropped. The host's later edges are still to come. -/
def State.applyReset (s : State) : State := { State.resetFor s.cfg with inputs := s.inputs }

/-- The host takes the oldest response, if there is one (R60: `rsp_valid = 1` and `rsp_ready = 1`). -/
def State.deliver (s : State) : State := { s with responses := s.responses.tail }

end Sys2Proof.Machine
end

