-- ==== Sys2Proof/Machine/PhaseAccumulator.lean ====
section
/-! DEFINITION. `phase_accumulator` (42_phase_accumulator): command SETF and the function `Advance`. -/

namespace Sys2Proof.Machine

/-- The increment SETF computes (R131): `fdiv32(fmul32(hz, Nf), SRf)`, left to right, two roundings (R204). -/
def increment (tableSize : Nat) (sampleRate : BitVec 32) (hz : Word) : Word :=
  fdiv32 (fmul32 hz (Nf tableSize)) (SRf sampleRate)

/-- `SETF hz` (R131). -/
def execSetf (hz : Word) (s : State) : Host.Outcome State Fault Refusal :=
  let q := increment s.cfg.tableSize s.sampleRate hz
  .next (State.respond { s with phaseIncrement := q } .ok 0)

/-- `Advance(phase, inc)` (R134). -/
def advance (tableSize : Nat) (phase inc : Word) : Word :=
  let s := fadd32 phase inc
  if isNaN s || isInf s then cNaN
  else
    let r := fremExact s (Nf tableSize)
    if gtF r posZero then r
    else if eqF r posZero then posZero
    else
      let t := fadd32 r (Nf tableSize)
      if eqF t (Nf tableSize) then posZero else t

end Sys2Proof.Machine
end

