-- ==== Sys2Proof/Machine/LinearInterpolator.lean ====
section
/-! DEFINITION. `linear_interpolator` (43_linear_interpolator_get): the function `Lerp` and command GET. -/

namespace Sys2Proof.Machine

/-- `frac` of R161: the distance of the phase from its table entry. -/
def fracOf (phase : Word) (base : Nat) : Word := fsub32 phase (idxToF32 base)

/-- The weighted average of R161, four operations in this order and nothing fused (R204). -/
def mix (frac t0 t1 : Word) : Word :=
  let w0 := fsub32 one32 frac
  let a := fmul32 w0 t0
  let b := fmul32 frac t1
  fadd32 a b

/-- `Lerp(phase, table)` (R161) at the state's phase; the two reads of R114. -/
def State.lerp (s : State) : Except Fault Word :=
  match f32ToIdx s.cfg.tableSize s.phase with
  | .error f => .error f
  | .ok base =>
    match s.memRead base, s.memRead (nextIndex s.cfg.tableSize base) with
    | .ok t0, .ok t1 => .ok (mix (fracOf s.phase base) t0 t1)
    | .error f, _ => .error f
    | _, .error f => .error f

/-- `GET` (R166): the sample at the phase before the advance, then the advance. -/
def execGet (s : State) : Host.Outcome State Fault Refusal :=
  match s.lerp with
  | .error f => .fault f
  | .ok sample =>
    .next (State.respond { s with phase := advance s.cfg.tableSize s.phase s.phaseIncrement } .ok sample)

end Sys2Proof.Machine
end

