-- ==== Sys2Proof/Machine/WavetableRom.lean ====
section
/-! DEFINITION. `wavetable_rom` (41_wavetable_rom): command WRT. -/

namespace Sys2Proof.Machine

/-- `WRT idx, data` (R111): BAD_INDEX when `idx ≥ N`; else the entry holds `data`, bit for bit. -/
def execWrt (idx : Index) (data : Word) (s : State) : Host.Outcome State Fault Refusal :=
  if idx.toNat ≥ s.cfg.tableSize then .next (s.raise (.badIndex idx))
  else
    match s.memWrite idx.toNat data with
    | .ok t => .next (t.respond .ok 0)
    | .error f => .fault f

end Sys2Proof.Machine
end

