-- ==== Sys2Proof/Machine/Dispatch.lean ====
section
/-! DEFINITION. The meaning of each command, one arm per constructor of `Instr` (30_encoding R64). -/

namespace Sys2Proof.Machine

def exec (i : Instr) (s : State) : Host.Outcome State Fault Refusal :=
  match i with
  | .get => Sys2Proof.Machine.execGet s
  | .setf hz => Sys2Proof.Machine.execSetf hz s
  | .wrt idx data => Sys2Proof.Machine.execWrt idx data s

end Sys2Proof.Machine
end

