-- ==== Sys2Proof/Machine/Port.lean ====
section
/-! DEFINITION. The ports (30_encoding R60): what one clock edge does. -/

namespace Sys2Proof.Machine

/-- One accepted command word (R17, R67): the decoded command, or ILLEGAL_CMD (R222). -/
def runCommand (w : Command) (s : State) : Host.Outcome State Fault Refusal :=
  match decode w with
  | .ok i => exec i s
  | .error _ => .next (s.raise .illegalCmd)

/-- The responses after the edge's delivery, if the host is ready for one. -/
def State.takeResponse (s : State) (rspReady : Bool) : State := if rspReady then s.deliver else s

/-- One clock edge (R60). A reset wins over a command and over a delivery at the same edge (R224, R250; log 14). The
response of a command is presented from the next edge on (log 4). -/
def runEdge (e : PortEdge) (s : State) : Host.Outcome State Fault Refusal :=
  if e.rst then .next s.applyReset
  else
    match e.cmd with
    | none => .next (s.takeResponse e.rspReady)
    | some w => runCommand w (s.takeResponse e.rspReady)

/-- The edge at which the host presents the command word `w` and takes no response. -/
def commandEdge (w : Command) : PortEdge := { rst := false, cmd := some w, rspReady := false }

/-- One step of the block: the oldest pending edge; with none pending the block "holds its state indefinitely" (R231;
log 5). A configuration that is not legal is refused (R24; log 7). -/
def runPorts (s : State) : Host.Outcome State Fault Refusal :=
  if s.cfg.legal then
    match s.inputs with
    | [] => .next s
    | e :: rest => runEdge e { s with inputs := rest }
  else .refused .illegalConfig

end Sys2Proof.Machine
end

