-- ==== Sys2Proof/Machine/Step.lean ====
section
/-! DEFINITION. One step of the machine, and how the host hands it its next command. -/

namespace Sys2Proof.Machine

/-- One step (R17): what the block does at the host's next clock edge. -/
def step (s : State) : Host.Outcome State Fault Refusal := runPorts s

/-- `s` with the command word whose low `nbits` bits are `w`'s presented at the next clock edge: the block fetches
nothing, the host presents one command at a time (R27; log 6). -/
def State.withFetchWord (s : State) (nbits w : Nat) : State :=
  { s with inputs := commandEdge (commandOfBits nbits w) :: s.inputs }

end Sys2Proof.Machine
end

