-- ==== Sys2Proof/Machine/Builder.lean ====
section
/-! DEFINITION. The host's side, no part of the block (00_scope R5): the wave table builder (40_wave_table_builder_host)
and the pseudo-operations (30_encoding R70, R72 to R74). -/

namespace Sys2Proof.Machine

/-- The present overtones, in slot order (R91). -/
def presentOvertones (os : OvertoneSet) : List Overtone := os.slots.toList.filterMap id

/-- `n` (R92): the number of present slots. -/
def overtoneCount (os : OvertoneSet) : Nat := (presentOvertones os).length

/-- A bounded sequence of present overtones as an overtone set, absent slots last; none above ten (R91). -/
def overtoneSetOf (ps : List Overtone) : Option OvertoneSet :=
  if ps.length ≤ Config.maxOvertones then some ⟨Vector.ofFn fun k => ps[k.val]?⟩ else none

/-- An entry of a table built from the empty set: a NaN, of a pattern the spec does not fix (R94; log 11). -/
def nanEntry (i : Nat) : Word := if isNaN (Config.hostNaN i) then Config.hostNaN i else cNaN

/-- `Build(overtones)` (R93, R94, R97): `N` words; all NaN for the empty set, else what the host computes. It "looks only
at the present overtones in slot order" (R91) and reads no state of the block (R96). -/
def build (tableSize : Nat) (os : OvertoneSet) : List Word :=
  (List.range tableSize).map fun i =>
    if overtoneCount os = 0 then nanEntry i else Config.hostSample tableSize (presentOvertones os) i

/-- The WRTs of `LDTAB` from entry `i` on. -/
def ldtabFrom : Nat → List Word → List Instr
  | _, [] => []
  | i, v :: vs => .wrt (BitVec.ofNat 16 i) v :: ldtabFrom (i + 1) vs

/-- `LDTAB v0, …, v(N−1)` (R72): one WRT per entry in increasing index order. -/
def ldtab (vs : List Word) : List Instr := ldtabFrom 0 vs

/-- `SETOVT` (R73, R113): `LDTAB Build(overtones)`. -/
def setovt (tableSize : Nat) (os : OvertoneSet) : List Instr := ldtab (build tableSize os)

/-- `GET x k` (R70): `k` GETs in a row. -/
def getTimes (k : Nat) : List Instr := List.replicate k .get

/-- `NEW` (R74): the reset state of a block built with this rate and `Build(overtones)`. -/
def newBlock (tableSize : Nat) (sampleRate : BitVec 32) (os : OvertoneSet) : State :=
  State.resetFor { tableSize := tableSize, sampleRate := sampleRate, tableInit := build tableSize os }

/-- The edges at which the host presents these commands, one after another, taking no response. -/
def commandEdges (is : List Instr) : List PortEdge := is.map fun i => commandEdge (encode i)

/-- Several oscillators (R230) are independent blocks: block `k` steps, the others hold their state. -/
def stepBlock : Nat → List State → Host.Outcome (List State) Fault Refusal
  | _, [] => .next []
  | 0, s :: ss =>
    match runPorts s with
    | .next t => .next (t :: ss)
    | .fault f => .fault f
    | .refused r => .refused r
  | k + 1, s :: ss =>
    match stepBlock k ss with
    | .next ts => .next (s :: ts)
    | .fault f => .fault f
    | .refused r => .refused r

end Sys2Proof.Machine
end

