-- ==== Sys2Proof/Machine/Assembler.lean ====
section
/-! DEFINITION. The text form of commands (30_encoding R68, R70, R72, R73): one command a line, mnemonic first, operands
separated by commas, `;` starting a comment. A line is a list of characters. -/

namespace Sys2Proof.Machine

/-- `<f32>` as written (R68): a pattern in hex, a decimal real `± digits × 10^exp10`, or a special word. -/
inductive FloatLit where
  | hex (w : Word)
  | dec (neg : Bool) (digits : Nat) (exp10 : Int)
  | inf (neg : Bool)
  | nan
  deriving DecidableEq, Repr

/-- The pattern a literal denotes (R68): a decimal "the binary32 value nearest to it, ties to even"; `nan` is `cNaN`.
DESIGN CHOICE (log 13): a decimal zero takes the sign written. -/
def literalPattern : FloatLit → Word
  | .hex w => w
  | .dec neg digits exp10 =>
    if digits = 0 then withSign neg 0
    else if 0 ≤ exp10 then round32 neg (digits * 10 ^ exp10.toNat * unitsPerOne) 1
    else round32 neg (digits * unitsPerOne) (10 ^ exp10.natAbs)
  | .inf neg => if neg then negInf else posInf
  | .nan => cNaN

/-- The value of a decimal digit. -/
def decDigit (c : Char) : Option Nat :=
  if '0' ≤ c ∧ c ≤ '9' then some (c.toNat - '0'.toNat) else none

/-- The value of a hex digit. -/
def hexDigit (c : Char) : Option Nat :=
  if 'a' ≤ c ∧ c ≤ 'f' then some (c.toNat - 'a'.toNat + 10)
  else if 'A' ≤ c ∧ c ≤ 'F' then some (c.toNat - 'A'.toNat + 10)
  else decDigit c

/-- A number from all characters of a text, most significant digit first. -/
def numberOf (digit : Char → Option Nat) (base : Nat) : Nat → List Char → Option Nat
  | acc, [] => some acc
  | acc, c :: cs =>
    match digit c with
    | some d => numberOf digit base (acc * base + d) cs
    | none => none

/-- A non-empty decimal number. -/
def decNumber (cs : List Char) : Option Nat := if cs.isEmpty then none else numberOf decDigit 10 0 cs

/-- The text before the first character `c`, and what follows it, if there is one. -/
def cutAt (c : Char) : List Char → List Char × Option (List Char)
  | [] => ([], none)
  | d :: cs =>
    if d = c then ([], some cs)
    else
      let (a, b) := cutAt c cs
      (d :: a, b)

/-- The text without a leading sign, and whether that sign is a minus. -/
def splitSign : List Char → Bool × List Char
  | '-' :: cs => (true, cs)
  | '+' :: cs => (false, cs)
  | cs => (false, cs)

/-- The decimal exponent after `e`; 0 when there is none. DESIGN CHOICE (log 13): R68 writes an exponent as `e±dd`; here
its sign may be left out and it has one digit or more. -/
def exponentOf : Option (List Char) → Option Int
  | none => some 0
  | some cs =>
    let (neg, ds) := splitSign cs
    (decNumber ds).map fun n => if neg then -(n : Int) else (n : Int)

/-- A decimal real literal: optional sign, digits, optional fraction, optional exponent (R68). -/
def decLiteral (cs : List Char) : Option FloatLit :=
  let (neg, body) := splitSign cs
  let (mantissa, exponent) := cutAt 'e' body
  let (whole, fraction) := cutAt '.' mantissa
  match decNumber whole, exponentOf exponent, fraction with
  | some n, some e, none => some (.dec neg n e)
  | some n, some e, some ds =>
    if ds.isEmpty then none else (numberOf decDigit 10 n ds).map fun m => .dec neg m (e - ds.length)
  | _, _, _ => none

/-- `<f32>` (R68). -/
def floatLit : List Char → Option FloatLit
  | ['i', 'n', 'f'] => some (.inf false)
  | ['-', 'i', 'n', 'f'] => some (.inf true)
  | ['n', 'a', 'n'] => some .nan
  | '0' :: 'x' :: ds =>
    if ds.length = 8 then (numberOf hexDigit 16 0 ds).map fun n => .hex (BitVec.ofNat 32 n) else none
  | cs => decLiteral cs

/-- The text without spaces at its ends. -/
def trimSpaces (cs : List Char) : List Char :=
  ((cs.dropWhile (· = ' ')).reverse.dropWhile (· = ' ')).reverse

/-- The pieces of a text between the characters `c`, each trimmed. -/
def splitAtChar (c : Char) : List Char → List (List Char)
  | [] => [[]]
  | d :: cs =>
    if d = c then [] :: splitAtChar c cs
    else
      match splitAtChar c cs with
      | [] => [[d]]
      | p :: ps => (d :: p) :: ps

/-- The operands of a line: none for an empty text. -/
def operandsOf (cs : List Char) : List (List Char) :=
  if (trimSpaces cs).isEmpty then [] else (splitAtChar ',' cs).map trimSpaces

/-- All of a list's operands as `<f32>` patterns. -/
def patternsOf : List (List Char) → Option (List Word)
  | [] => some []
  | o :: os =>
    match floatLit o, patternsOf os with
    | some l, some ws => some (literalPattern l :: ws)
    | _, _ => none

/-- `(r1, v1), (r2, v2), …` from the operands as the commas cut them (R73). -/
def overtonesOf : List (List Char) → Option (List Overtone)
  | [] => some []
  | ('(' :: r) :: v :: os =>
    match v.reverse with
    | ')' :: v' =>
      match floatLit (trimSpaces r), floatLit (trimSpaces v'.reverse), overtonesOf os with
      | some lr, some lv, some ps => some (⟨literalPattern lr, literalPattern lv⟩ :: ps)
      | _, _, _ => none
    | _ => none
  | _ => none

/-- `<idx>` (R68): a decimal integer that the 16-bit field holds. -/
def indexOf (cs : List Char) : Option Index :=
  match decNumber cs with
  | some n => if n < 2 ^ 16 then some (BitVec.ofNat 16 n) else none
  | none => none

/-- The commands of mnemonic `m` with these operands, in a block of `N` entries; none where the text is no command. An
`LDTAB` has exactly `N` operands (R72). -/
def commandsOf (tableSize : Nat) (m : List Char) (rest : List Char) : Option (List Instr) :=
  let ops := operandsOf rest
  if m = ['G', 'E', 'T'] then
    match trimSpaces rest with
    | [] => some [.get]
    | 'x' :: ' ' :: k => (decNumber (trimSpaces k)).map getTimes
    | _ => none
  else if m = ['S', 'E', 'T', 'F'] then
    match ops with
    | [o] => (floatLit o).map fun l => [.setf (literalPattern l)]
    | _ => none
  else if m = ['W', 'R', 'T'] then
    match ops with
    | [i, o] =>
      match indexOf i, floatLit o with
      | some idx, some l => some [.wrt idx (literalPattern l)]
      | _, _ => none
    | _ => none
  else if m = ['L', 'D', 'T', 'A', 'B'] then
    match patternsOf ops with
    | some ws => if ws.length = tableSize then some (ldtab ws) else none
    | none => none
  else if m = ['S', 'E', 'T', 'O', 'V', 'T'] then
    match overtonesOf ops with
    | some ps => (overtoneSetOf ps).map (setovt tableSize)
    | none => none
  else none

/-- The commands of one line (R68); a line with nothing before its comment has none. -/
def assembleLine (tableSize : Nat) (line : List Char) : Option (List Instr) :=
  let code := trimSpaces (cutAt ';' line).1
  let (m, rest) := cutAt ' ' code
  if code.isEmpty then some [] else commandsOf tableSize m (rest.getD [])

/-- The commands of the lines of a text, in order. -/
def assemble (tableSize : Nat) : List (List Char) → Option (List Instr)
  | [] => some []
  | l :: ls =>
    match assembleLine tableSize l, assemble tableSize ls with
    | some is, some js => some (is ++ js)
    | _, _ => none

end Sys2Proof.Machine
end

