-- ==== Sys2Proof/WellFormed.lean ====
section
/-! DEFINITION. Which commands a block of a given configuration executes rather than answers with an error. -/

namespace Sys2Proof

/-- A command is well formed for `c` when its index, if it has one, is in the table: `idx` "is legal only when
`idx < N`" (R63). Every other operand value is accepted. An ill-formed WRT is answered with BAD_INDEX (R223). -/
def Instr.wellFormed (c : Config) : Instr → Bool
  | .get => true
  | .setf _ => true
  | .wrt idx _ => decide (idx.toNat < c.tableSize)

end Sys2Proof
end

