-- ==== Sys2Proof/Safety.lean ====
section
/-! DEFINITION. The terms claims use: the invariant of a legal block, what it means to be the rounding of a real number
(44_float_arithmetic R192), the errors of a word (60_exceptions), and the builder's exact sum (40 R93). Nothing here is
part of a step. -/

namespace Sys2Proof.Machine

/-- The only NaN the block's own values can be (R196). -/
def canonicalNaN (w : Word) : Bool := !isNaN w || w == cNaN

/-- What the data of an undelivered response can be (R62): nothing for ILLEGAL_CMD, an index outside the table for
BAD_INDEX, no NaN but `cNaN` for OK (R196). -/
def Response.fits (c : Config) (r : Response) : Bool :=
  match r.status with
  | .ok => canonicalNaN r.data
  | .illegalCmd => r.data == 0
  | .badIndex => decide (c.tableSize ≤ r.data.toNat) && decide (r.data.toNat < 2 ^ 16)

/-- The invariant of a legal block: legal parameters (R8), a legal phase (R22), no NaN in the increment but `cNaN` (R21),
the rate of the strap (R32), the table in canonical form (log 2), and responses of the shapes of R62. -/
def State.inv (s : State) : Bool :=
  s.cfg.legal && legalPhase s.cfg.tableSize s.phase && canonicalNaN s.phaseIncrement &&
    s.sampleRate == s.cfg.sampleRate && Memory.wf s.cfg s.table && s.responses.all (Response.fits s.cfg)

/-- A finite number from the overflow threshold of R192 on is no finite binary32 value: `2^128 − 2^103`. -/
def overflowThreshold : Rat := 2 ^ 128 - 2 ^ 103

/-- `w` is `round32(x)` for a real `x ≠ 0`, in the words of R192: it has the sign of `x`; it is an infinity exactly from
the threshold on; else it is finite, no finite value is nearer to `x`, and where another value is equally near the
fraction field of `w` is even. -/
def RoundsTo (x : Rat) (w : Word) : Prop :=
  signBit w = decide (x < 0) ∧
  (overflowThreshold ≤ |x| → isInf w = true) ∧
  (|x| < overflowThreshold →
    isFinite w = true ∧
    ∀ v : Word, isFinite v = true →
      |x - value w| ≤ |x - value v| ∧
      (|x - value w| = |x - value v| → value v ≠ value w → fracField w % 2 = 0))

/-- `trunc` (R199): a real rounded toward zero to a whole number. -/
def truncate (x : Rat) : Int := if 0 ≤ x then ⌊x⌋ else ⌈x⌉

/-- The numeric value of a pattern that is no NaN, the infinities included (R190, R200). -/
noncomputable def extendedValue (w : Word) : EReal :=
  if isInf w then if signBit w then ⊥ else ⊤ else ((value w : Real) : EReal)

/-- The phase after `m` advances by `inc` from the reset phase `+0`. -/
def phaseAfter (tableSize : Nat) (inc : Word) (m : Nat) : Word := (fun p => advance tableSize p inc)^[m] posZero

/-- The words R65 lists as illegal. -/
def listedIllegal (w : Command) : Prop :=
  (opField w = 0b000#3 ∨ opField w = 0b100#3 ∨ opField w = 0b101#3 ∨ opField w = 0b110#3 ∨ opField w = 0b111#3) ∨
  rsvField w ≠ 0 ∨
  (opField w = 0b001#3 ∧ (idxField w ≠ 0 ∨ dataField w ≠ 0)) ∨
  (opField w = 0b010#3 ∧ idxField w ≠ 0)

/-- The error a word raises in a block of `N` entries, if any (R222, R223, R224). -/
def errorOf (tableSize : Nat) (w : Command) : Option CommandError :=
  match decodeFor tableSize w with
  | .illegal => some .illegalCmd
  | .badIndex idx => some (.badIndex idx)
  | .get => none
  | .setf _ => none
  | .wrt _ _ => none

/-- The response an error is answered with (R221). -/
def CommandError.response (e : CommandError) : Response := ⟨e.status, e.info⟩

/-- The responses left after an edge's delivery. -/
def remaining (s : State) (rspReady : Bool) : List Response := if rspReady then s.responses.tail else s.responses

/-- `B[i]` (R93): the builder's exact, real-number entry for a set with a present overtone. DESIGN CHOICE (log 11): R93 is
in real numbers and silent on an overtone that holds an infinity or a NaN; such a pattern is read here through `value`, as
the number its fields would stand for, so of such a set this says nothing about a host. R93 defines `B` for `n ≥ 1` only;
that this is 0 for the empty set (Lean's `0 · (1 / 0)`) is the model's choice too, and says nothing about a host either. -/
noncomputable def exactEntry (tableSize : Nat) (os : OvertoneSet) (i : Nat) : Real :=
  ((presentOvertones os).map fun o =>
      Real.sin (2 * Real.pi * i * (value o.ratio : Real) / tableSize) * (value o.volume : Real)).sum
    * (1 / overtoneCount os)

/-- `table` agrees with `Build` within `tol` (R97, R98): one finite word per entry, each that near to the exact one; for the
empty set, of which R93 has no `B[i]`, every entry a NaN (R94). The spec asks nearness of no table built from an overtone
that holds an infinity or a NaN; that such a pattern reads as above, and that finite entries are asked for there, is the
model's choice (log 11). -/
def ApproximatesBuild (tol : Real) (tableSize : Nat) (os : OvertoneSet) (table : List Word) : Prop :=
  table.length = tableSize ∧
  ∀ i v, table[i]? = some v →
    if overtoneCount os = 0 then isNaN v = true
    else isFinite v = true ∧ |(value v : Real) - exactEntry tableSize os i| ≤ tol

end Sys2Proof.Machine
end

