-- ==== Sys2Proof/Certificates/Slice0/Obligations.lean ====
section
/-! DEFINITION. The statements about the model. Each docstring names the rules of spec/ the statement formalises. -/

open Sys2Proof Sys2Proof.Machine

/-! ## Encoding -/

/-- No bit of an encoding is dropped: the word of a command decodes to that command (R61, R64, R67). -/
def Obligations.DecodeOfEncodeIsTheCommand : Prop :=
  ∀ i : Instr, decode (encode i) = .ok i

/-- Each command has one word: whatever decodes to it is its encoding (R61, R64, R65). -/
def Obligations.EncodeOfDecodeIsTheWord : Prop :=
  ∀ (w : Command) (i : Instr), decode w = .ok i → encode i = w

/-- R64: the match and mask of each row select exactly the words of its command, with the fields R64 names; the rows are
disjoint, and a word that selects none is illegal. -/
def Obligations.WordSelectsItsRow : Prop :=
  ∀ w : Command,
    (decode w = .ok .get ↔ w &&& 0xFFFF_FFFF_FFFF_FFFF#64 = 0x2000_0000_0000_0000#64) ∧
    (∀ hz, decode w = .ok (.setf hz) ↔
      w &&& 0xFFFF_FFFF_0000_0000#64 = 0x4000_0000_0000_0000#64 ∧ hz = w.extractLsb' 0 32) ∧
    (∀ idx data, decode w = .ok (.wrt idx data) ↔
      w &&& 0xFFFF_0000_0000_0000#64 = 0x6000_0000_0000_0000#64 ∧
        idx = w.extractLsb' 32 16 ∧ data = w.extractLsb' 0 32) ∧
    ¬(w &&& 0xFFFF_FFFF_FFFF_FFFF#64 = 0x2000_0000_0000_0000#64 ∧
      w &&& 0xFFFF_FFFF_0000_0000#64 = 0x4000_0000_0000_0000#64) ∧
    ¬(w &&& 0xFFFF_FFFF_FFFF_FFFF#64 = 0x2000_0000_0000_0000#64 ∧
      w &&& 0xFFFF_0000_0000_0000#64 = 0x6000_0000_0000_0000#64) ∧
    ¬(w &&& 0xFFFF_FFFF_0000_0000#64 = 0x4000_0000_0000_0000#64 ∧
      w &&& 0xFFFF_0000_0000_0000#64 = 0x6000_0000_0000_0000#64) ∧
    (w &&& 0xFFFF_FFFF_FFFF_FFFF#64 ≠ 0x2000_0000_0000_0000#64 →
      w &&& 0xFFFF_FFFF_0000_0000#64 ≠ 0x4000_0000_0000_0000#64 →
      w &&& 0xFFFF_0000_0000_0000#64 ≠ 0x6000_0000_0000_0000#64 → ∃ e, decode w = .error e)

/-- R67: the decoding algorithm, test by test. -/
def Obligations.DecodingAlgorithmInOrder : Prop :=
  ∀ (n : Nat) (w : Command),
    let op := w.extractLsb' 61 3
    let rsv := w.extractLsb' 48 13
    let idx := w.extractLsb' 32 16
    let data := w.extractLsb' 0 32
    (rsv ≠ 0 → decodeFor n w = .illegal) ∧
    (rsv = 0 → op = 0b001#3 → (idx ≠ 0 ∨ data ≠ 0) → decodeFor n w = .illegal) ∧
    (rsv = 0 → op = 0b001#3 → idx = 0 → data = 0 → decodeFor n w = .get) ∧
    (rsv = 0 → op = 0b010#3 → idx ≠ 0 → decodeFor n w = .illegal) ∧
    (rsv = 0 → op = 0b010#3 → idx = 0 → decodeFor n w = .setf data) ∧
    (rsv = 0 → op = 0b011#3 → n ≤ idx.toNat → decodeFor n w = .badIndex idx) ∧
    (rsv = 0 → op = 0b011#3 → idx.toNat < n → decodeFor n w = .wrt idx data) ∧
    (rsv = 0 → op ≠ 0b001#3 → op ≠ 0b010#3 → op ≠ 0b011#3 → decodeFor n w = .illegal)

/-- A few words written out from R64's pattern strings decode to the commands they stand for. -/
def Obligations.WrittenWordsDecode : Prop :=
  decode 0b0010000000000000000000000000000000000000000000000000000000000000#64 = .ok .get ∧
  decode 0b0100000000000000000000000000000001000011110111000000000000000000#64 = .ok (.setf 0x43DC0000#32) ∧
  decode 0b0110000000000000000000000000001000111111100000000000000000000000#64 = .ok (.wrt 2#16 0x3F800000#32) ∧
  decode 0b0110000000000000111111111111111100000000000000000000000000000001#64 = .ok (.wrt 0xFFFF#16 1#32)

/-- R62: where the fields of the response word stand, and that the status is 0, 1 or 2. -/
def Obligations.ResponseWordLayout : Prop :=
  ∀ r : Response,
    r.word.extractLsb' 0 32 = r.data ∧
    r.word.extractLsb' 32 2 =
      (match r.status with | .ok => 0#2 | .illegalCmd => 1#2 | .badIndex => 2#2) ∧
    r.word.extractLsb' 32 2 ≠ 3#2

/-! ## The ports and the step -/

/-- A step with a command word presented is the meaning of the command it decodes to (R17, R67). The model's choices: the
edge's delivery comes before the command (log 4), and `withFetchWord` presents its word before the pending edges, with
`rst = 0` and no response taken (log 6), so that the step on it is the command's meaning in the state itself. -/
def Obligations.StepRunsTheDecodedCommand : Prop :=
  ∀ (s : State) (i : Instr), s.cfg.legal = true →
    (∀ (w : Command) (rdy : Bool) (rest : List PortEdge),
      s.inputs = { rst := false, cmd := some w, rspReady := rdy } :: rest → decode w = .ok i →
        step s = exec i { s with inputs := rest, responses := remaining s rdy }) ∧
    (∀ nbits w : Nat, decodeTableWord nbits w = some i → step (s.withFetchWord nbits w) = exec i s)

/-- R65, R222: exactly the listed words are illegal, the all-zero and the all-ones word among them and no WRT word with
`rsv = 0`; an illegal word is answered `{1, 0x0000_0000}` and changes no state of the block. That it is accepted at its
edge, however many responses are outstanding, that the edge's delivery comes first, and that its own response is not
delivered at that edge, is the model's choice (logs 3 and 4). -/
def Obligations.IllegalWordsAnswered : Prop :=
  (∀ w : Command, (∃ e, decode w = .error e) ↔ listedIllegal w) ∧
  listedIllegal 0x0000_0000_0000_0000#64 ∧ listedIllegal 0xFFFF_FFFF_FFFF_FFFF#64 ∧
  (∀ w : Command, rsvField w = 0 → opField w = 0b011#3 → ¬listedIllegal w) ∧
  ∀ (s : State) (w : Command) (rdy : Bool) (rest : List PortEdge), s.cfg.legal = true →
    s.inputs = { rst := false, cmd := some w, rspReady := rdy } :: rest → listedIllegal w →
      step s = .next { s with inputs := rest, responses := remaining s rdy ++ [⟨.illegalCmd, 0⟩] }

/-- R60, R49: in a legal block every accepted word is answered by exactly one response, after all earlier ones. That a
presented word is accepted at its edge and answered at once, however many responses are outstanding, and that its response
is not delivered at that edge, is the model's choice (logs 3 and 4); R60 and R266 leave both delays open. -/
def Obligations.AcceptedCommandAnsweredOnce : Prop :=
  ∀ (s : State) (w : Command) (rdy : Bool) (rest : List PortEdge), s.inv = true →
    s.inputs = { rst := false, cmd := some w, rspReady := rdy } :: rest →
      ∃ t r, step s = .next t ∧ t.inputs = rest ∧ t.responses = remaining s rdy ++ [r]

/-- R30, R31, R32: an edge with `rst = 1` leaves `phase` and `phase_increment` at `+0`, every entry at `TABLE_INIT`, and
`sample_rate` at the strap value, whatever command stands at the same edge (R224); undelivered responses are dropped
(R250). -/
def Obligations.ResetEdgeLeavesResetState : Prop :=
  ∀ (s : State) (e : PortEdge) (rest : List PortEdge), s.cfg.legal = true → s.inputs = e :: rest → e.rst = true →
    ∃ t, step s = .next t ∧ t.phase = 0x00000000#32 ∧ t.phaseIncrement = 0x00000000#32 ∧
      (∀ i v, s.cfg.tableInit[i]? = some v → t.memRead i = .ok v) ∧
      t.sampleRate = s.cfg.sampleRate ∧ t.cfg = s.cfg ∧ t.responses = [] ∧ t.inputs = rest

/-- R231, R60: with no edge pending the block holds its state (the step is log 5's); at an edge with `rst = 0` and no
command the oldest undelivered response is delivered when `rsp_ready = 1`, and nothing else changes. That every undelivered
response is presented, and so delivered at the next edge with `rsp_ready = 1`, is the model's choice (log 4); R60 asks for
`rsp_valid = 1` as well, and R266 leaves that delay open. -/
def Obligations.IdleBlockHoldsItsState : Prop :=
  ∀ s : State, s.cfg.legal = true →
    (s.inputs = [] → step s = .next s) ∧
    (∀ (r : Response) (later : List Response) (rest : List PortEdge),
      s.inputs = { rst := false, cmd := none, rspReady := true } :: rest → s.responses = r :: later →
        step s = .next { s with inputs := rest, responses := later }) ∧
    (∀ rest : List PortEdge,
      s.inputs = { rst := false, cmd := none, rspReady := true } :: rest → s.responses = [] →
        step s = .next { s with inputs := rest }) ∧
    (∀ rest : List PortEdge,
      s.inputs = { rst := false, cmd := none, rspReady := false } :: rest → step s = .next { s with inputs := rest })

/-- R8, R24: the legal configurations, and that a step in any other is refused by name. -/
def Obligations.IllegalConfigurationRefused : Prop :=
  ∀ s : State,
    (s.cfg.legal = true ↔ 1 ≤ s.cfg.tableSize ∧ s.cfg.tableSize ≤ 65536 ∧ s.cfg.sampleRate ≠ 0 ∧
      s.cfg.tableInit.length = s.cfg.tableSize) ∧
    (s.cfg.legal = false → step s = .refused .illegalConfig)

/-- The invariant holds after reset, for every legal configuration (R22, R30, R31, R32). -/
def Obligations.ResetMeetsInvariant : Prop :=
  ∀ c : Config, c.legal = true → (State.resetFor c).inv = true

/-- R22 and more: every step keeps the invariant of a legal block, from every state that has it. -/
def Obligations.StepKeepsInvariant : Prop :=
  ∀ s t : State, s.inv = true → step s = .next t → t.inv = true

/-- R60, R167: a legal block never stops; every step answers a next state. -/
def Obligations.LegalBlockNeverStops : Prop :=
  ∀ s : State, s.inv = true → ∃ t, step s = .next t

/-- R32: reset sets `sample_rate` to the strap value and nothing changes it, nor any parameter. -/
def Obligations.SampleRateKeepsStrapValue : Prop :=
  (∀ c : Config, (State.resetFor c).sampleRate = c.sampleRate) ∧
  ∀ s t : State, s.sampleRate = s.cfg.sampleRate → step s = .next t →
    t.cfg = s.cfg ∧ t.sampleRate = s.cfg.sampleRate

/-- R20: only GET and reset write `phase`. -/
def Obligations.OnlyGetAndResetWritePhase : Prop :=
  ∀ s t : State, step s = .next t →
    t.phase = s.phase ∨
    ∃ e rest, s.inputs = e :: rest ∧
      ((e.rst = true ∧ t.phase = 0x00000000#32) ∨
        (e.rst = false ∧ e.cmd = some (encode .get) ∧
          t.phase = advance s.cfg.tableSize s.phase s.phaseIncrement))

/-- R21: only SETF and reset write `phase_increment`. -/
def Obligations.OnlySetfAndResetWriteIncrement : Prop :=
  ∀ s t : State, step s = .next t →
    t.phaseIncrement = s.phaseIncrement ∨
    ∃ e rest, s.inputs = e :: rest ∧
      ((e.rst = true ∧ t.phaseIncrement = 0x00000000#32) ∨
        ∃ hz, e.rst = false ∧ e.cmd = some (encode (.setf hz)) ∧
          t.phaseIncrement = increment s.cfg.tableSize s.sampleRate hz)

/-- R23, R41: only WRT and reset write the table, and a WRT only its own entry. -/
def Obligations.OnlyWrtAndResetWriteTable : Prop :=
  ∀ s t : State, s.inv = true → step s = .next t →
    (∀ j, t.memRead j = s.memRead j) ∨
    ∃ e rest, s.inputs = e :: rest ∧
      ((e.rst = true ∧ ∀ j v, s.cfg.tableInit[j]? = some v → t.memRead j = .ok v) ∨
        ∃ idx data, e.rst = false ∧ e.cmd = some (encode (.wrt idx data)) ∧ idx.toNat < s.cfg.tableSize ∧
          t.memRead idx.toNat = .ok data ∧ ∀ j, j ≠ idx.toNat → t.memRead j = s.memRead j)

/-! ## Errors -/

/-- R223: exactly a WRT word with `rsv = 0` and `idx ≥ N` raises BAD_INDEX, with that index; it is answered
`{2, zext_32(idx)}` and changes no state; a WRT with `idx < N` is answered OK, and so is every WRT when `N = 65536`, where
no word raises BAD_INDEX; GET and SETF do not raise it. That the word is accepted at its edge, however many responses are
outstanding, that the edge's delivery comes first, and that its own response is not delivered at that edge, is the model's
choice (logs 3 and 4). -/
def Obligations.BadIndexAnswered : Prop :=
  (∀ (s : State) (w : Command) (rdy : Bool) (rest : List PortEdge), s.cfg.legal = true →
    s.inputs = { rst := false, cmd := some w, rspReady := rdy } :: rest →
    rsvField w = 0 → opField w = 0b011#3 → s.cfg.tableSize ≤ (idxField w).toNat →
      step s = .next
        { s with inputs := rest, responses := remaining s rdy ++ [⟨.badIndex, (idxField w).setWidth 32⟩] }) ∧
  (∀ (n : Nat) (w : Command) (idx : Index),
    errorOf n w = some (.badIndex idx) ↔
      rsvField w = 0 ∧ opField w = 0b011#3 ∧ idx = idxField w ∧ n ≤ (idxField w).toNat) ∧
  (∀ (s : State) (idx : Index) (data : Word), idx.toNat < s.cfg.tableSize →
    ∃ t, exec (.wrt idx data) s = .next t ∧ t.responses = s.responses ++ [⟨.ok, 0⟩]) ∧
  (∀ (s : State) (idx : Index) (data : Word), s.cfg.tableSize = 65536 →
    ∃ t, exec (.wrt idx data) s = .next t ∧ t.responses = s.responses ++ [⟨.ok, 0⟩]) ∧
  (∀ (w : Command) (idx : Index), errorOf 65536 w ≠ some (.badIndex idx)) ∧
  (∀ s t : State, exec .get s = .next t → ∃ d, t.responses = s.responses ++ [⟨.ok, d⟩]) ∧
  (∀ (s t : State) (hz : Word), exec (.setf hz) s = .next t → ∃ d, t.responses = s.responses ++ [⟨.ok, d⟩])

/-- R221, R227: any number of erroneous words in a row are each answered by their own error response, and the state is
what it was before the first of them. That the host takes none of the responses meanwhile, however many there are, rests
on the model's unbounded list of them (log 4). -/
def Obligations.ErroneousWordsLeaveNoTrace : Prop :=
  ∀ (ws : List Command) (s : State) (rest : List PortEdge), s.cfg.legal = true →
    s.inputs = ws.map commandEdge ++ rest → (∀ w ∈ ws, errorOf s.cfg.tableSize w ≠ none) →
      Host.Core.run core ws.length s =
        .next { s with
          inputs := rest
          responses := s.responses ++
            ws.filterMap fun w => (errorOf s.cfg.tableSize w).map CommandError.response }

/-! ## WRT and the table -/

/-- R111, R43: the word of a WRT has `op = 0b011`, `rsv = 0` and its operands, and with `rsv ≠ 0` there is no WRT; with
`idx < N`, WRT completes: the entry holds `data` bit for bit, every other entry and every other part
of the state is unchanged, and the answer is `{OK, 0}`; writing what the entry holds changes nothing; with `idx ≥ N` it
raises BAD_INDEX; the rule's example. -/
def Obligations.WrtWritesOneEntry : Prop :=
  (∀ (idx : Index) (data : Word),
    opField (encode (.wrt idx data)) = 0b011#3 ∧ rsvField (encode (.wrt idx data)) = 0 ∧
      idxField (encode (.wrt idx data)) = idx ∧ dataField (encode (.wrt idx data)) = data) ∧
  (∀ w : Command, opField w = 0b011#3 → rsvField w ≠ 0 → ∃ e, decode w = .error e) ∧
  decode 0x6000_0002_3F80_0000#64 = .ok (.wrt 2#16 one32) ∧
  ∀ (s : State) (idx : Index) (data : Word), Memory.wf s.cfg s.table = true →
    (idx.toNat < s.cfg.tableSize →
      ∃ t, exec (.wrt idx data) s = .next t ∧
        t = { s with table := t.table, responses := s.responses ++ [⟨.ok, 0⟩] } ∧
        t.memRead idx.toNat = .ok data ∧
        (∀ j, j ≠ idx.toNat → t.memRead j = s.memRead j) ∧
        (s.memRead idx.toNat = .ok data → t.table = s.table)) ∧
    (s.cfg.tableSize ≤ idx.toNat →
      exec (.wrt idx data) s =
        .next { s with responses := s.responses ++ [⟨.badIndex, idx.setWidth 32⟩] })

/-- R42: outside a write, an entry reads as `TABLE_INIT` after reset and as what was last written after a write; a read
of an entry that exists always answers. -/
def Obligations.ReadReturnsLastWritten : Prop :=
  ∀ (s : State) (i : Nat), s.cfg.legal = true → Memory.wf s.cfg s.table = true → i < s.cfg.tableSize →
    (∃ v, s.memRead i = .ok v) ∧
    (∀ v, s.cfg.tableInit[i]? = some v → (State.resetFor s.cfg).memRead i = .ok v) ∧
    (∀ v, ∃ t, s.memWrite i v = .ok t ∧ t.memRead i = .ok v ∧ ∀ j, j ≠ i → t.memRead j = s.memRead j)

/-- The canonical form of the table survives every write (log 2). -/
def Obligations.TableWriteKeepsCanonicalForm : Prop :=
  ∀ (s t : State) (i : Nat) (v : Word), Memory.wf s.cfg s.table = true → s.memWrite i v = .ok t →
    Memory.wf t.cfg t.table = true

/-- Tables in canonical form that read alike are equal data (log 2). -/
def Obligations.CanonicalTablesReadingAlikeAreEqual : Prop :=
  ∀ (c : Config) (m m' : Memory), Memory.wf c m = true → Memory.wf c m' = true →
    (∀ i, i < c.tableSize → Memory.read c m i = Memory.read c m' i) → m = m'

/-- R112: after the `N` WRTs of an LDTAB, `table[i] = v_i` for all `i`, and `phase` and `phase_increment` are what they
were; each WRT is answered `{OK, 0}`. That `N` responses may be outstanding at once is the model's choice (log 4). -/
def Obligations.LdtabReplacesTheTable : Prop :=
  ∀ (s : State) (vs : List Word) (rest : List PortEdge), s.cfg.legal = true → Memory.wf s.cfg s.table = true →
    vs.length = s.cfg.tableSize → s.inputs = commandEdges (ldtab vs) ++ rest →
      ∃ t : State, Host.Core.run core s.cfg.tableSize s = .next t ∧
        (∀ i v, vs[i]? = some v → t.memRead i = .ok v) ∧
        t.phase = s.phase ∧ t.phaseIncrement = s.phaseIncrement ∧ t.inputs = rest ∧
        t.responses = s.responses ++ List.replicate s.cfg.tableSize ⟨.ok, 0⟩

/-! ## SETF -/

/-- R131: the word of a SETF has `op = 0b010`, `rsv = 0`, `idx = 0` and its operand, and with `rsv ≠ 0` or `idx ≠ 0` there
is no SETF; SETF completes in every state: it writes `fdiv32(fmul32(hz, Nf), SRf)` to `phase_increment`, answers `{OK, 0}`
and changes nothing else; the rule's example. -/
def Obligations.SetfSetsTheIncrement : Prop :=
  (∀ hz : Word,
    opField (encode (.setf hz)) = 0b010#3 ∧ rsvField (encode (.setf hz)) = 0 ∧
      idxField (encode (.setf hz)) = 0 ∧ dataField (encode (.setf hz)) = hz) ∧
  (∀ w : Command, opField w = 0b010#3 → (rsvField w ≠ 0 ∨ idxField w ≠ 0) → ∃ e, decode w = .error e) ∧
  (decode 0x4000_0000_43DC_0000#64 = .ok (.setf 0x43DC0000#32) ∧
    fmul32 0x43DC0000#32 (idxToF32 128) = 0x475C0000#32 ∧
    fdiv32 0x475C0000#32 (u32ToF32 44100#32) = 0x3FA377EE#32) ∧
  ∀ (s : State) (hz : Word),
    exec (.setf hz) s =
      .next { s with
        phaseIncrement := fdiv32 (fmul32 hz (idxToF32 s.cfg.tableSize)) (u32ToF32 s.sampleRate)
        responses := s.responses ++ [⟨.ok, 0⟩] }

/-- R133, the rows on special frequencies: a zero or an infinity keeps its sign, an overflowing product gives an infinity
of the sign of `hz`, every NaN gives `cNaN`, and a finite increment has the sign of `hz`. -/
def Obligations.SetfSpecialFrequencies : Prop :=
  ∀ (n : Nat) (rate : BitVec 32) (hz : Word), 1 ≤ n → n ≤ 65536 → rate ≠ 0 →
    (hz = posZero → increment n rate hz = posZero) ∧
    (hz = negZero → increment n rate hz = negZero) ∧
    (hz = posInf → increment n rate hz = posInf) ∧
    (hz = negInf → increment n rate hz = negInf) ∧
    (isNaN hz = true → increment n rate hz = cNaN) ∧
    (isFinite hz = true → overflowThreshold ≤ |value hz * n| →
      increment n rate hz = if signBit hz then negInf else posInf) ∧
    (isNaN hz = false → signBit (increment n rate hz) = signBit hz)

/-- R132: twice the frequency gives exactly twice the increment when nothing overflows or underflows. (The spec's
condition, "produces a subnormal or zero", is taken with the smallest normal exponent left out as well; log 17.) -/
def Obligations.DoubledFrequencyDoublesIncrement : Prop :=
  ∀ (n : Nat) (rate : BitVec 32) (f f2 : Word), 1 ≤ n → n ≤ 65536 → rate ≠ 0 →
    isFinite f = true → isFinite f2 = true → value f2 = 2 * value f →
    2 ≤ expField (fmul32 f (Nf n)) → 2 ≤ expField (increment n rate f) →
    isFinite (fmul32 f2 (Nf n)) = true → isFinite (increment n rate f2) = true →
      value (increment n rate f2) = 2 * value (increment n rate f)

/-- R256: the sample of the GET after a SETF is the one the old state gives; the new increment is first used in that
GET's advance. -/
def Obligations.SetfFirstUsedInNextAdvance : Prop :=
  ∀ (s : State) (hz : Word), s.cfg.legal = true → legalPhase s.cfg.tableSize s.phase = true →
    ∃ t u u', exec (.setf hz) s = .next t ∧ exec .get t = .next u ∧ exec .get s = .next u' ∧
      u.responses.getLast? = u'.responses.getLast? ∧
      u.phase = advance s.cfg.tableSize s.phase (increment s.cfg.tableSize s.sampleRate hz) ∧
      u'.phase = advance s.cfg.tableSize s.phase s.phaseIncrement

/-! ## GET: the sample -/

/-- R166, R161: on a legal phase GET completes: it answers the interpolation of the two entries at the phase before the
advance, by the four operations in their order, advances `phase`, and changes nothing else. Its one word is
`0x2000_0000_0000_0000`, and a word with that `op` and any other bit set is no GET; the rule's example. -/
def Obligations.GetAnswersThenAdvances : Prop :=
  encode .get = 0x2000_0000_0000_0000#64 ∧
  (∀ w : Command, opField w = 0b001#3 → (rsvField w ≠ 0 ∨ idxField w ≠ 0 ∨ dataField w ≠ 0) →
    ∃ e, decode w = .error e) ∧
  (f32ToIdx 8 0x40F00000#32 = .ok 7 ∧
    fadd32 (fmul32 (fsub32 one32 (fsub32 0x40F00000#32 (idxToF32 7))) 0x40E00000#32)
      (fmul32 (fsub32 0x40F00000#32 (idxToF32 7)) posZero) = 0x40600000#32 ∧
    advance 8 0x40F00000#32 0x3FC00000#32 = 0x3F800000#32) ∧
  ∀ s : State, s.cfg.legal = true → legalPhase s.cfg.tableSize s.phase = true →
    ∃ base t0 t1,
      f32ToIdx s.cfg.tableSize s.phase = .ok base ∧
      s.memRead base = .ok t0 ∧ s.memRead ((base + 1) % s.cfg.tableSize) = .ok t1 ∧
      exec .get s =
        .next { s with
          phase := advance s.cfg.tableSize s.phase s.phaseIncrement
          responses := s.responses ++
            [⟨.ok,
              fadd32 (fmul32 (fsub32 0x3F800000#32 (fsub32 s.phase (idxToF32 base))) t0)
                (fmul32 (fsub32 s.phase (idxToF32 base)) t1)⟩] }

/-- A GET in a state whose phase is no legal phase, which no run reaches, stops by name (R203; log 8). -/
def Obligations.GetStopsOnIllegalPhase : Prop :=
  ∀ s : State, legalPhase s.cfg.tableSize s.phase = false → exec .get s = .fault .illegalPhase

/-- R162: for every legal phase both indices are in `[0, N − 1]`. -/
def Obligations.GetIndicesInsideTable : Prop :=
  ∀ (n : Nat) (x : Word), 1 ≤ n → n ≤ 65536 → legalPhase n x = true →
    ∃ base, f32ToIdx n x = .ok base ∧ base ≤ n - 1 ∧ (base + 1) % n ≤ n - 1 ∧
      (x = cNaN → base = 0) ∧ (isFinite x = true → (base : Int) = ⌊value x⌋)

/-- R163: `frac` is exact and in `[0, 1)`, `+0` at an integer phase, the phase itself below 1, `cNaN` for `cNaN`; the
weight `1 − frac` is in `(0, 1]` and is 1.0 for `frac ≤ 2^−25`. -/
def Obligations.FractionIsExact : Prop :=
  ∀ (n : Nat) (x : Word) (base : Nat), 1 ≤ n → n ≤ 65536 → f32ToIdx n x = .ok base →
    (x = cNaN → fracOf x base = cNaN) ∧
    (isFinite x = true →
      value (fracOf x base) = value x - ⌊value x⌋ ∧
      0 ≤ value (fracOf x base) ∧ value (fracOf x base) < 1 ∧
      (value x = ⌊value x⌋ → fracOf x base = posZero) ∧
      (value x < 1 → base = 0 ∧ fracOf x base = x) ∧
      0 < value (fsub32 one32 (fracOf x base)) ∧ value (fsub32 one32 (fracOf x base)) ≤ 1 ∧
      (0 < value (fracOf x base) → value (fracOf x base) ≤ 1 / 2 ^ 25 →
        fsub32 one32 (fracOf x base) = one32))

/-- R164: the sample at an integer phase, case by case. -/
def Obligations.IntegerPhaseSample : Prop :=
  ∀ t0 t1 : Word,
    fsub32 one32 posZero = one32 ∧
    (isNaN t0 = false → fmul32 one32 t0 = t0) ∧
    (isFinite t1 = true → fmul32 posZero t1 = if signBit t1 then negZero else posZero) ∧
    (isFinite t1 = true → ((isFinite t0 = true ∧ isZero t0 = false) ∨ isInf t0 = true) →
      mix posZero t0 t1 = t0) ∧
    (isFinite t1 = true → isZero t0 = true →
      mix posZero t0 t1 = if t0 = negZero ∧ signBit t1 = true then negZero else posZero) ∧
    (isFinite t1 = false → mix posZero t0 t1 = cNaN) ∧
    (isNaN t0 = true → mix posZero t0 t1 = cNaN) ∧
    ∀ (s : State) (base : Nat), s.cfg.legal = true → f32ToIdx s.cfg.tableSize s.phase = .ok base →
      isFinite s.phase = true → value s.phase = base →
      s.memRead base = .ok t0 → s.memRead (nextIndex s.cfg.tableSize base) = .ok t1 →
        s.lerp = .ok (mix posZero t0 t1)

/-- R165: non-finite values propagate into the sample; of finite entries only the last sum can overflow. -/
def Obligations.NonFiniteValuesPropagate : Prop :=
  ∀ (s : State) (base : Nat) (t0 t1 sample : Word), s.cfg.legal = true →
    f32ToIdx s.cfg.tableSize s.phase = .ok base →
    s.memRead base = .ok t0 → s.memRead (nextIndex s.cfg.tableSize base) = .ok t1 → s.lerp = .ok sample →
      (s.phase = cNaN → sample = cNaN) ∧
      (isNaN t0 = true ∨ isNaN t1 = true → sample = cNaN) ∧
      (isInf t0 = true ∨ isInf t1 = true → isInf sample = true ∨ sample = cNaN) ∧
      (isFinite s.phase = true → isFinite t0 = true → isFinite t1 = true →
        isFinite (fmul32 (fsub32 one32 (fracOf s.phase base)) t0) = true ∧
        isFinite (fmul32 (fracOf s.phase base) t1) = true ∧ isNaN sample = false)

/-- R168: with `phase` and `phase_increment` at `+0`, as reset leaves them, every GET answers the same sample and changes
nothing else. -/
def Obligations.GetBeforeSetfIsConstant : Prop :=
  (∀ c : Config, (State.resetFor c).phase = posZero ∧ (State.resetFor c).phaseIncrement = posZero) ∧
  ∀ s : State, s.cfg.legal = true → s.phase = posZero → s.phaseIncrement = posZero →
    ∃ t0 t1, s.memRead 0 = .ok t0 ∧ s.memRead (1 % s.cfg.tableSize) = .ok t1 ∧
      exec .get s =
        .next { s with responses := s.responses ++ [⟨.ok, fadd32 (fmul32 one32 t0) (fmul32 posZero t1)⟩] }

/-- R166: the sample does not depend on `phase_increment`, and the new phase does not depend on the table. -/
def Obligations.SampleIgnoresIncrementAndPhaseIgnoresTable : Prop :=
  ∀ (s t : State), exec .get s = .next t →
    (∀ q, ∃ t', exec .get { s with phaseIncrement := q } = .next t' ∧ t'.responses = t.responses) ∧
    (∀ m, ∃ t', exec .get { s with table := m } = .next t' ∧ t'.phase = t.phase)

/-! ## GET: the advance -/

/-- R135: `Advance` returns a legal phase for every legal phase and every increment. -/
def Obligations.AdvanceReturnsLegalPhase : Prop :=
  ∀ (n : Nat) (phase inc : Word), 1 ≤ n → n ≤ 65536 → legalPhase n phase = true →
    legalPhase n (advance n phase inc) = true

/-- R134: a non-finite sum gives `cNaN`; a sum `s ≥ 0` gives exactly `s − N·floor(s/N)`; a sum `s < 0` gives the binary32
value nearest to that, or `+0` where it would be `N`. -/
def Obligations.AdvanceIsFlooredModulo : Prop :=
  ∀ (n : Nat) (phase inc : Word), 1 ≤ n → n ≤ 65536 →
    let s := fadd32 phase inc
    let x := value s - n * ⌊value s / n⌋
    (isFinite s = false → advance n phase inc = cNaN) ∧
    (isFinite s = true → 0 ≤ value s →
      value (advance n phase inc) = x ∧ signBit (advance n phase inc) = false) ∧
    (isFinite s = true → value s < 0 → x = 0 → advance n phase inc = posZero) ∧
    (isFinite s = true → value s < 0 → x ≠ 0 →
      ∃ t, RoundsTo x t ∧ advance n phase inc = if value t = n then posZero else t)

/-- R137: a finite increment that is not negative and a legal phase other than `cNaN` have a finite sum that is not
negative, and the advance is its exact truncated remainder, never `−0`. -/
def Obligations.ForwardAdvanceIsExactRemainder : Prop :=
  ∀ (n : Nat) (phase inc : Word), 1 ≤ n → n ≤ 65536 → legalPhase n phase = true → phase ≠ cNaN →
    isFinite inc = true → (signBit inc = false ∨ inc = negZero) →
      isFinite (fadd32 phase inc) = true ∧ 0 ≤ value (fadd32 phase inc) ∧
      advance n phase inc = fremExact (fadd32 phase inc) (Nf n) ∧ advance n phase inc ≠ negZero

/-- R138: a `cNaN` phase stays `cNaN` and is answered by `cNaN`, SETF does not write `phase`, and a legal phase other than
`cNaN` becomes `cNaN` exactly when the increment is infinite or a NaN. -/
def Obligations.NanPhaseIsAbsorbing : Prop :=
  (∀ s : State, s.cfg.legal = true → s.phase = cNaN →
    exec .get s = .next { s with responses := s.responses ++ [⟨.ok, cNaN⟩] }) ∧
  (∀ (s t : State) (hz : Word), exec (.setf hz) s = .next t → t.phase = s.phase) ∧
  (∀ (n : Nat) (inc : Word), 1 ≤ n → n ≤ 65536 → advance n cNaN inc = cNaN) ∧
  (∀ (n : Nat) (phase inc : Word), 1 ≤ n → n ≤ 65536 → legalPhase n phase = true → phase ≠ cNaN →
    (advance n phase inc = cNaN ↔ isInf inc = true ∨ isNaN inc = true))

/-- R139: an increment whose magnitude is below half the spacing `2^(e−23)` of binary32 values at the phase leaves the
phase as it is, of either sign at a phase that is no power of two. At a power of two the spacing below is half as wide, so
a negative increment is absorbed there below a quarter of `2^(e−23)` (log 17). -/
def Obligations.SmallIncrementIsAbsorbed : Prop :=
  ∀ (n : Nat) (phase inc : Word) (e : Int), 1 ≤ n → n ≤ 65536 → legalPhase n phase = true → phase ≠ cNaN →
    -126 ≤ e → (2 : Rat) ^ e ≤ value phase → value phase < 2 ^ (e + 1) →
    isFinite inc = true → |value inc| < 2 ^ (e - 23) / 2 →
    (0 ≤ value inc ∨ (2 : Rat) ^ e < value phase ∨ |value inc| < 2 ^ (e - 23) / 4) →
      advance n phase inc = phase

/-- R140: an increment that is not negative, whose additions are all exact, gives an exact phase sequence: after `m`
advances from `+0` the phase is `m·inc` modulo `N`, and it is `+0` again when that is 0. The additions are exact for a whole
number `k ≤ 65536`, and for a dyadic fraction `k / 2^j` with `N·2^j + k ≤ 2^24` (0.5 and 0.25 for every legal `N`). -/
def Obligations.ExactStepsArePeriodic : Prop :=
  ∀ n : Nat, 1 ≤ n → n ≤ 65536 →
    (∀ (inc : Word) (m : Nat), isFinite inc = true → 0 ≤ value inc →
      (∀ i, i < m → value (fadd32 (phaseAfter n inc i) inc) = value (phaseAfter n inc i) + value inc) →
        value (phaseAfter n inc m) = m * value inc - n * ⌊m * value inc / n⌋ ∧
        (m * value inc = n * ⌊m * value inc / n⌋ → phaseAfter n inc m = posZero)) ∧
    (∀ k m : Nat, k ≤ 65536 → phaseAfter n (idxToF32 k) m = idxToF32 (m * k % n)) ∧
    (∀ (inc : Word) (k j m : Nat), isFinite inc = true → value inc = (k : Rat) / 2 ^ j → n * 2 ^ j + k ≤ 2 ^ 24 →
      value (phaseAfter n inc m) = ((m * k % (n * 2 ^ j) : Nat) : Rat) / 2 ^ j ∧
      (m * k % (n * 2 ^ j) = 0 → phaseAfter n inc m = posZero))

/-! ## Arithmetic -/

/-- R192: `round32` rounds to nearest, ties to even, overflows at the threshold, is monotone, and is the identity on
binary32 values. -/
def Obligations.RoundingIsNearestEven : Prop :=
  (∀ (neg : Bool) (num den : Nat), 0 < num → 0 < den →
    RoundsTo ((if neg then -1 else 1) * ((num : Rat) / (den * unitsPerOne))) (round32 neg num den)) ∧
  (∀ (neg : Bool) (den : Nat), 0 < den → isZero (round32 neg 0 den) = true) ∧
  (∀ (neg neg' : Bool) (num den num' den' : Nat), 0 < den → 0 < den' →
    (if neg then -1 else 1) * ((num : Rat) / den) ≤ (if neg' then -1 else 1) * ((num' : Rat) / den') →
      units (round32 neg num den) ≤ units (round32 neg' num' den')) ∧
  (∀ w : Word, isNaN w = false → round32 (signBit w) (mag w) 1 = w)

/-- R193: addition and subtraction, case by case. -/
def Obligations.AdditionFollowsItsRule : Prop :=
  ∀ a b : Word,
    fsub32 a b = fadd32 a (b ^^^ 0x80000000#32) ∧
    (isNaN a = true ∨ isNaN b = true → fadd32 a b = cNaN) ∧
    (isInf a = true → isInf b = true → fadd32 a b = if signBit a = signBit b then a else cNaN) ∧
    (isInf a = true → isFinite b = true → fadd32 a b = a) ∧
    (isFinite a = true → isInf b = true → fadd32 a b = b) ∧
    (isFinite a = true → isFinite b = true → value a + value b ≠ 0 →
      RoundsTo (value a + value b) (fadd32 a b)) ∧
    (isFinite a = true → isFinite b = true → value a + value b = 0 →
      fadd32 a b = if a = negZero ∧ b = negZero then negZero else posZero) ∧
    (isFinite a = true → fadd32 a (negate a) = posZero ∧ fsub32 a a = posZero) ∧
    (isFinite a = true → isZero a = false → fadd32 a posZero = a ∧ fadd32 a negZero = a)

/-- R194: multiplication, case by case. -/
def Obligations.MultiplicationFollowsItsRule : Prop :=
  ∀ a b : Word,
    let sg := signBit a ^^ signBit b
    (isNaN a = true ∨ isNaN b = true → fmul32 a b = cNaN) ∧
    (isZero a = true → isInf b = true → fmul32 a b = cNaN) ∧
    (isInf a = true → isZero b = true → fmul32 a b = cNaN) ∧
    (isInf a = true → isNaN b = false → isZero b = false → fmul32 a b = if sg then negInf else posInf) ∧
    (isInf b = true → isNaN a = false → isZero a = false → fmul32 a b = if sg then negInf else posInf) ∧
    (isFinite a = true → isFinite b = true → (isZero a = true ∨ isZero b = true) →
      fmul32 a b = if sg then negZero else posZero) ∧
    (isFinite a = true → isFinite b = true → isZero a = false → isZero b = false →
      RoundsTo (value a * value b) (fmul32 a b) ∧ signBit (fmul32 a b) = sg) ∧
    (isNaN b = false → fmul32 one32 b = b)

/-- R195: division, case by case; by `SRf`, the block's only divisor, a finite dividend has a finite quotient. -/
def Obligations.DivisionFollowsItsRule : Prop :=
  ∀ a b : Word,
    let sg := signBit a ^^ signBit b
    (isNaN a = true ∨ isNaN b = true → fdiv32 a b = cNaN) ∧
    (isZero a = true → isZero b = true → fdiv32 a b = cNaN) ∧
    (isInf a = true → isInf b = true → fdiv32 a b = cNaN) ∧
    (isInf a = true → isFinite b = true → fdiv32 a b = if sg then negInf else posInf) ∧
    (isFinite a = true → isZero a = false → isZero b = true → fdiv32 a b = if sg then negInf else posInf) ∧
    (isZero a = true → isFinite b = true → isZero b = false → fdiv32 a b = if sg then negZero else posZero) ∧
    (isFinite a = true → isInf b = true → fdiv32 a b = if sg then negZero else posZero) ∧
    (isFinite a = true → isFinite b = true → isZero a = false → isZero b = false →
      RoundsTo (value a / value b) (fdiv32 a b) ∧ signBit (fdiv32 a b) = sg) ∧
    (∀ rate : BitVec 32, rate ≠ 0 →
      isFinite (SRf rate) = true ∧ 1 ≤ value (SRf rate) ∧ (isFinite a = true → isFinite (fdiv32 a (SRf rate)) = true))

/-- R196: an operation has a NaN result exactly where it has no numeric one, and that NaN is `cNaN`. -/
def Obligations.NanResultsAreCanonical : Prop :=
  ∀ a b : Word,
    (isNaN (fadd32 a b) = true ↔
      isNaN a = true ∨ isNaN b = true ∨ (isInf a = true ∧ isInf b = true ∧ signBit a ≠ signBit b)) ∧
    (isNaN (fsub32 a b) = true ↔
      isNaN a = true ∨ isNaN b = true ∨ (isInf a = true ∧ isInf b = true ∧ signBit a = signBit b)) ∧
    (isNaN (fmul32 a b) = true ↔
      isNaN a = true ∨ isNaN b = true ∨ (isZero a = true ∧ isInf b = true) ∨ (isInf a = true ∧ isZero b = true)) ∧
    (isNaN (fdiv32 a b) = true ↔
      isNaN a = true ∨ isNaN b = true ∨ (isZero a = true ∧ isZero b = true) ∨ (isInf a = true ∧ isInf b = true)) ∧
    (isNaN (fadd32 a b) = true → fadd32 a b = cNaN) ∧ (isNaN (fsub32 a b) = true → fsub32 a b = cNaN) ∧
    (isNaN (fmul32 a b) = true → fmul32 a b = cNaN) ∧ (isNaN (fdiv32 a b) = true → fdiv32 a b = cNaN)

/-- R199: the exact truncated remainder. -/
def Obligations.RemainderIsExact : Prop :=
  ∀ a b : Word, isFinite a = true → isFinite b = true → 1 ≤ value b →
    let r := fremExact a b
    value r = value a - value b * truncate (value a / value b) ∧
    |value r| < value b ∧
    (value r ≠ 0 → signBit r = signBit a) ∧
    (value r = 0 → r = if signBit a then negZero else posZero) ∧
    (0 ≤ value a → value r = value a - value b * ⌊value a / value b⌋) ∧
    (|value a| < value b → value r = value a)

/-- R200: all four comparisons of patterns that are no NaN compare their numeric values, the infinities beyond every finite
value and the zeros equal; every comparison with a NaN is false. -/
def Obligations.ComparisonsAreByValue : Prop :=
  ∀ a b : Word,
    (isNaN a = true ∨ isNaN b = true → ltF a b = false ∧ gtF a b = false ∧ eqF a b = false ∧ geF a b = false) ∧
    (isFinite a = true → isFinite b = true →
      ltF a b = decide (value a < value b) ∧ gtF a b = decide (value b < value a) ∧
      eqF a b = decide (value a = value b) ∧ geF a b = decide (value b ≤ value a)) ∧
    (isNaN a = false → isNaN b = false →
      (ltF a b = true ↔ extendedValue a < extendedValue b) ∧ (gtF a b = true ↔ extendedValue b < extendedValue a) ∧
      (eqF a b = true ↔ extendedValue a = extendedValue b) ∧ (geF a b = true ↔ extendedValue b ≤ extendedValue a)) ∧
    (isFinite a = true →
      ltF negInf a = true ∧ gtF negInf a = false ∧ eqF negInf a = false ∧ geF negInf a = false ∧
      ltF a negInf = false ∧ gtF a negInf = true ∧ eqF a negInf = false ∧ geF a negInf = true ∧
      ltF posInf a = false ∧ gtF posInf a = true ∧ eqF posInf a = false ∧ geF posInf a = true ∧
      ltF a posInf = true ∧ gtF a posInf = false ∧ eqF a posInf = false ∧ geF a posInf = false) ∧
    ltF negInf posInf = true ∧ ltF posInf negInf = false ∧ eqF posInf negInf = false ∧ eqF posInf posInf = true ∧
    eqF negInf negInf = true ∧ eqF posZero negZero = true

/-- R201: the conversion of the sample rate rounds to nearest even, and is exact for at most 24 significant bits. -/
def Obligations.RateConversionIsRounded : Prop :=
  u32ToF32 0#32 = posZero ∧
  (∀ u : BitVec 32, u ≠ 0 → RoundsTo (u.toNat : Rat) (u32ToF32 u)) ∧
  (∀ (u : BitVec 32) (c j : Nat), c < 2 ^ 24 → u.toNat = c * 2 ^ j → value (u32ToF32 u) = u.toNat) ∧
  (∀ u : BitVec 32, u.toNat ≤ 2 ^ 24 → value (u32ToF32 u) = u.toNat) ∧
  u32ToF32 44100#32 = 0x472C4400#32 ∧ u32ToF32 48000#32 = 0x473B8000#32 ∧ u32ToF32 8000#32 = 0x45FA0000#32 ∧
  u32ToF32 16777217#32 = 0x4B800000#32 ∧ u32ToF32 16777219#32 = 0x4B800002#32 ∧
  u32ToF32 4294967295#32 = 0x4F800000#32

/-- R202, R203: indices convert exactly; a legal phase converts to its floor, and `cNaN` to 0. R203 calls every other input
not defined; that it answers `illegalPhase` there is the model's choice (log 8). -/
def Obligations.IndexConversionsAreExact : Prop :=
  (∀ i : Nat, i ≤ 65536 → value (idxToF32 i) = i ∧ isFinite (idxToF32 i) = true ∧ signBit (idxToF32 i) = false) ∧
  (∀ (n : Nat) (x : Word), 1 ≤ n → n ≤ 65536 →
    (x = cNaN → f32ToIdx n x = .ok 0) ∧
    (isFinite x = true → signBit x = false → value x < n →
      ∃ i : Nat, f32ToIdx n x = .ok i ∧ (i : Int) = ⌊value x⌋ ∧ i ≤ n - 1) ∧
    (x ≠ cNaN → ¬(isFinite x = true ∧ signBit x = false ∧ value x < n) → f32ToIdx n x = .error .illegalPhase))

/-! ## The host's side -/

/-- R94: a table built from the empty set has `N` entries, every one a NaN; with such a table every GET answers `cNaN`. -/
def Obligations.EmptySetGivesNanSamples : Prop :=
  (∀ (n : Nat) (os : OvertoneSet), overtoneCount os = 0 →
    (build n os).length = n ∧ ∀ v ∈ build n os, isNaN v = true) ∧
  ∀ s : State, s.cfg.legal = true → legalPhase s.cfg.tableSize s.phase = true →
    (∀ i, i < s.cfg.tableSize → ∃ v, s.memRead i = .ok v ∧ isNaN v = true) →
      ∃ t, exec .get s = .next t ∧ t.responses = s.responses ++ [⟨.ok, cNaN⟩]

/-- R99: the exact entry is at most the average of the volumes' magnitudes, so at most 1 when no volume exceeds 1. (Of
overtones that hold an infinity or a NaN the spec is silent; the reading there is the model's choice, log 11.) -/
def Obligations.AveragedEntryIsBounded : Prop :=
  ∀ (n : Nat) (os : OvertoneSet) (i : Nat), 0 < overtoneCount os →
    |exactEntry n os i| ≤
      (1 / overtoneCount os) * ((presentOvertones os).map fun o => |(value o.volume : Real)|).sum ∧
    ((∀ o ∈ presentOvertones os, |(value o.volume : Real)| ≤ 1) → |exactEntry n os i| ≤ 1)

/-- R98, R95: one fundamental of volume 1 gives one period of the sine, and a table within a tolerance of the builder's
entries is within it of the sine; one overtone of ratio 0 gives an all-zero table; a negated ratio negates every entry.
(Of an overtone that holds an infinity or a NaN the spec is silent; the reading there is the model's choice, log 11.) -/
def Obligations.SingleOvertoneEntries : Prop :=
  ∀ (n : Nat) (os : OvertoneSet) (i : Nat),
    (presentOvertones os = [⟨one32, one32⟩] → exactEntry n os i = Real.sin (2 * Real.pi * i / n)) ∧
    (∀ (tol : Real) (table : List Word), presentOvertones os = [⟨one32, one32⟩] → ApproximatesBuild tol n os table →
      table.length = n ∧ ∀ v, table[i]? = some v → |(value v : Real) - Real.sin (2 * Real.pi * i / n)| ≤ tol) ∧
    (∀ v, presentOvertones os = [⟨posZero, v⟩] → exactEntry n os i = 0) ∧
    (∀ (os' : OvertoneSet) (r v : Word), presentOvertones os = [⟨r, v⟩] →
      presentOvertones os' = [⟨negate r, v⟩] → exactEntry n os' i = -exactEntry n os i)

/-- R68: a decimal literal denotes the binary32 value nearest to it, ties to even, and `nan` denotes `cNaN`. (The sign of
a decimal zero is the model's choice, log 13, and is not stated.) -/
def Obligations.DecimalLiteralIsNearest : Prop :=
  (∀ (neg : Bool) (digits : Nat) (exp10 : Int), 0 < digits →
    RoundsTo ((if neg then -1 else 1) * (digits * (10 : Rat) ^ exp10)) (literalPattern (.dec neg digits exp10))) ∧
  literalPattern .nan = cNaN ∧ literalPattern (.inf false) = posInf ∧ literalPattern (.inf true) = negInf ∧
  ∀ w, literalPattern (.hex w) = w

/-- R230: independent blocks share nothing: a step of one leaves every other as it is. -/
def Obligations.BlocksAreIndependent : Prop :=
  ∀ (k : Nat) (ss ts : List State), stepBlock k ss = .next ts →
    ts.length = ss.length ∧ (∀ j, j ≠ k → ts[j]? = ss[j]?) ∧
    (∀ s, ss[k]? = some s → ∃ t, step s = .next t ∧ ts[k]? = some t)

/-- R91: the array of optional slots and the bounded sequence of present overtones are two forms of one set. At most ten
overtones form a set, whose present overtones they are, in their order, and more form none; and `Build` looks only at the
present overtones. (The exact entry of the empty set, and of overtones that hold an infinity or a NaN, is the model's
choice, log 11.) -/
def Obligations.BuildSeesOnlyPresentOvertones : Prop :=
  (∀ ps : List Overtone, ps.length ≤ 10 →
    ∃ os, overtoneSetOf ps = some os ∧ presentOvertones os = ps ∧ overtoneCount os = ps.length) ∧
  (∀ ps : List Overtone, 10 < ps.length → overtoneSetOf ps = none) ∧
  (∀ os : OvertoneSet, overtoneCount os ≤ 10) ∧
  (∀ (n : Nat) (os os' : OvertoneSet), presentOvertones os = presentOvertones os' →
    build n os = build n os' ∧ ∀ i, exactEntry n os i = exactEntry n os' i)
end

