-- ==== Sys2Proof/Laws/Format.lean ====
section
/-! SUPPORT. Laws of the binary32 format: the fields of a pattern built from a sign and its low 31 bits, and the order of
magnitudes. -/

namespace Sys2Proof.Machine

/-- The magnitude of the pattern whose low 31 bits are `p`. -/
def patMag (p : Nat) : Nat := magOf (p / 2 ^ 23) (p % 2 ^ 23)

/-- The low 31 bits of a pattern. -/
def lowBits (w : Word) : Nat := w.toNat % 2 ^ 31

theorem lowBits_lt (w : Word) : lowBits w < 2 ^ 31 := Nat.mod_lt _ (by decide)

theorem signBit_eq (w : Word) : signBit w = decide (2 ^ 31 ≤ w.toNat) := by
  have h := w.isLt
  simp only [signBit, BitVec.getLsbD, Nat.testBit_eq_decide_div_mod_eq, decide_eq_decide]
  omega

theorem expField_eq (w : Word) : expField w = lowBits w / 2 ^ 23 := by
  have h := w.isLt
  simp only [expField, lowBits]
  omega

theorem fracField_eq (w : Word) : fracField w = lowBits w % 2 ^ 23 := by
  simp only [fracField, lowBits]
  omega

theorem mag_eq_patMag (w : Word) : mag w = patMag (lowBits w) := by
  rw [mag, patMag, expField_eq, fracField_eq]

theorem expField_lt (w : Word) : expField w < 256 := Nat.mod_lt _ (by decide)

theorem fracField_lt (w : Word) : fracField w < 2 ^ 23 := Nat.mod_lt _ (by decide)

theorem toNat_withSign (neg : Bool) {m : Nat} (h : m < 2 ^ 31) :
    (withSign neg m).toNat = if neg then m + 2 ^ 31 else m := by
  cases neg
  · rw [withSign, if_neg Bool.false_ne_true, if_neg Bool.false_ne_true, BitVec.toNat_ofNat]; omega
  · rw [withSign, if_pos rfl, if_pos rfl, BitVec.toNat_ofNat]; omega

/-- A pattern is its sign and its low bits. -/
theorem withSign_signBit_lowBits (w : Word) : withSign (signBit w) (lowBits w) = w := by
  have h := w.isLt
  apply BitVec.eq_of_toNat_eq
  rw [toNat_withSign _ (lowBits_lt w), signBit_eq, lowBits]
  split
  · simp_all
    omega
  · simp_all

@[simp] theorem signBit_withSign (neg : Bool) {m : Nat} (h : m < 2 ^ 31) : signBit (withSign neg m) = neg := by
  rw [signBit_eq, toNat_withSign neg h]
  cases neg
  · exact decide_eq_false (by simp only [Bool.false_eq_true, if_false]; omega)
  · exact decide_eq_true (by simp only [if_true]; omega)

@[simp] theorem lowBits_withSign (neg : Bool) {m : Nat} (h : m < 2 ^ 31) : lowBits (withSign neg m) = m := by
  rw [lowBits, toNat_withSign neg h]
  split <;> omega

theorem mag_withSign (neg : Bool) {m : Nat} (h : m < 2 ^ 31) : mag (withSign neg m) = patMag m := by
  rw [mag_eq_patMag, lowBits_withSign neg h]

/-- Patterns are equal when their signs and low bits are. -/
theorem word_ext {v w : Word} (hs : signBit v = signBit w) (hl : lowBits v = lowBits w) : v = w := by
  rw [← withSign_signBit_lowBits v, ← withSign_signBit_lowBits w, hs, hl]

theorem isFinite_iff (w : Word) : isFinite w = true ↔ lowBits w < 0x7F800000 := by
  have := lowBits_lt w
  rw [isFinite, expField_eq, bne_iff_ne]
  omega

theorem isInf_iff (w : Word) : isInf w = true ↔ lowBits w = 0x7F800000 := by
  have := lowBits_lt w
  rw [isInf, expField_eq, fracField_eq, Bool.and_eq_true, beq_iff_eq, beq_iff_eq]
  omega

theorem isNaN_iff (w : Word) : isNaN w = true ↔ 0x7F800000 < lowBits w := by
  have := lowBits_lt w
  rw [isNaN, expField_eq, fracField_eq, Bool.and_eq_true, beq_iff_eq, bne_iff_ne]
  omega

theorem isZero_iff (w : Word) : isZero w = true ↔ lowBits w = 0 := by
  have := lowBits_lt w
  rw [isZero, expField_eq, fracField_eq, Bool.and_eq_true, beq_iff_eq, beq_iff_eq]
  omega

/-- A pattern whose significand `t` stands at the weight of its exponent `k`. -/
theorem patMag_of_significand {k t : Nat} (ht : t ≤ 2 ^ 24) (hk : k = 0 ∨ 2 ^ 23 ≤ t) :
    patMag (k * 2 ^ 23 + t) = t * 2 ^ k := by
  rcases Nat.lt_or_ge t (2 ^ 23) with h | h
  · obtain rfl : k = 0 := by omega
    have hd : (0 * 2 ^ 23 + t) / 2 ^ 23 = 0 := by omega
    have hm : (0 * 2 ^ 23 + t) % 2 ^ 23 = t := by omega
    rw [patMag, hd, hm]
    simp [magOf]
  · rcases Nat.lt_or_ge t (2 ^ 24) with h' | h'
    · have hd : (k * 2 ^ 23 + t) / 2 ^ 23 = k + 1 := by omega
      have hm : 2 ^ 23 + (k * 2 ^ 23 + t) % 2 ^ 23 = t := by omega
      rw [patMag, hd, magOf, if_neg (Nat.succ_ne_zero k), hm, Nat.add_sub_cancel]
    · obtain rfl : t = 2 ^ 24 := by omega
      have hd : (k * 2 ^ 23 + 2 ^ 24) / 2 ^ 23 = k + 2 := by omega
      have hm : (k * 2 ^ 23 + 2 ^ 24) % 2 ^ 23 = 0 := by omega
      rw [patMag, hd, hm, magOf, if_neg (by omega), show k + 2 - 1 = k + 1 by omega, pow_succ]
      ring

/-- Every pattern has the form of `patMag_of_significand`, with a significand below `2^24`. -/
theorem exists_significand (p : Nat) :
    ∃ k t, p = k * 2 ^ 23 + t ∧ t < 2 ^ 24 ∧ (k = 0 ∨ 2 ^ 23 ≤ t) := by
  rcases Nat.lt_or_ge p (2 ^ 24) with h | h
  · exact ⟨0, p, by omega, h, .inl rfl⟩
  · exact ⟨p / 2 ^ 23 - 1, 2 ^ 23 + p % 2 ^ 23, by omega, by omega, .inr (by omega)⟩

/-- The next pattern is one unit in the last place up. -/
theorem patMag_succ {k t : Nat} (ht : t < 2 ^ 24) (hk : k = 0 ∨ 2 ^ 23 ≤ t) :
    patMag (k * 2 ^ 23 + t + 1) = (t + 1) * 2 ^ k := by
  have := patMag_of_significand (k := k) (t := t + 1) (by omega) (by omega)
  rwa [show k * 2 ^ 23 + (t + 1) = k * 2 ^ 23 + t + 1 by omega] at this

theorem patMag_lt_succ (p : Nat) : patMag p < patMag (p + 1) := by
  obtain ⟨k, t, rfl, ht, hk⟩ := exists_significand p
  rw [patMag_succ ht hk, patMag_of_significand ht.le hk, Nat.succ_mul]
  exact Nat.lt_add_of_pos_right (by positivity)

theorem patMag_strictMono : StrictMono patMag := strictMono_nat_of_lt_succ patMag_lt_succ

@[simp] theorem patMag_zero : patMag 0 = 0 := by decide

/-- Finite patterns with the same value have the same low bits. -/
theorem patMag_inj {p q : Nat} : patMag p = patMag q ↔ p = q := patMag_strictMono.injective.eq_iff

theorem patMag_le {p q : Nat} : patMag p ≤ patMag q ↔ p ≤ q := patMag_strictMono.le_iff_le

theorem patMag_lt {p q : Nat} : patMag p < patMag q ↔ p < q := patMag_strictMono.lt_iff_lt

theorem mag_eq_zero (w : Word) : mag w = 0 ↔ isZero w = true := by
  rw [mag_eq_patMag, isZero_iff, ← patMag_zero, patMag_inj, patMag_zero]

theorem natAbs_units (w : Word) : (units w).natAbs = mag w := by
  unfold units
  split <;> simp

end Sys2Proof.Machine
end

