-- ==== Sys2Proof/Laws/Round.lean ====
section
/-! SUPPORT. Laws of rounding (44_float_arithmetic R192): one lemma, `roundMag_le_iff`, says where each pattern's interval
ends; monotonicity, exactness and nearness follow from it. -/

namespace Sys2Proof.Machine

/-- The quotient is at most `t` exactly below the point half way to `t + 1`, or at that point when `t` is even. -/
theorem roundQuotient_le_iff (num : Nat) {den : Nat} (hd : 0 < den) (t : Nat) :
    roundQuotient num den ≤ t ↔ 2 * num < (2 * t + 1) * den ∨ (2 * num = (2 * t + 1) * den ∧ t % 2 = 0) := by
  have hdm := Nat.div_add_mod num den
  have hr := Nat.mod_lt num hd
  simp only [roundQuotient]
  generalize num / den = q at *
  generalize num % den = r at *
  subst hdm
  rcases Nat.lt_trichotomy q t with h | h | h
  · obtain ⟨d, rfl⟩ : ∃ d, t = q + 1 + d := ⟨t - q - 1, by omega⟩
    have h1 : 2 * (den * q + r) < (2 * (q + 1 + d) + 1) * den := by nlinarith [Nat.zero_le (d * den)]
    simp only [h1, true_or, iff_true]
    split <;> omega
  · subst h
    have e : (2 * q + 1) * den = 2 * (den * q) + den := by ring
    rw [e]
    split <;> omega
  · obtain ⟨d, rfl⟩ : ∃ d, q = t + 1 + d := ⟨q - t - 1, by omega⟩
    have h1 : (2 * t + 1) * den < 2 * (den * (t + 1 + d) + r) := by nlinarith [Nat.zero_le (d * den)]
    constructor
    · intro h2
      split at h2 <;> omega
    · omega

theorem le_roundQuotient {num den t : Nat} (hd : 0 < den) (h : t * den ≤ num) : t ≤ roundQuotient num den := by
  by_contra hc
  rcases t with _ | t
  · exact hc (Nat.zero_le _)
  · have := (roundQuotient_le_iff num hd t).1 (by omega)
    rw [Nat.succ_mul] at h
    have e : (2 * t + 1) * den = 2 * (t * den) + den := by ring
    omega

theorem roundQuotient_le {num den t : Nat} (hd : 0 < den) (h : num ≤ t * den) : roundQuotient num den ≤ t := by
  rw [roundQuotient_le_iff num hd]
  left
  have e : (2 * t + 1) * den = 2 * (t * den) + den := by ring
  omega

theorem excessBits_spec (q : Nat) :
    q < 2 ^ (excessBits q + 24) ∧ (excessBits q = 0 ∨ 2 ^ (excessBits q + 23) ≤ q) := by
  rcases Nat.eq_zero_or_pos q with rfl | hq
  · exact ⟨by positivity, .inl (by decide)⟩
  · have h1 : q < 2 ^ (Nat.log2 q + 1) := Nat.lt_log2_self
    have h2 : 2 ^ Nat.log2 q ≤ q := Nat.log2_self_le hq.ne'
    refine ⟨lt_of_lt_of_le h1 (Nat.pow_le_pow_right (by decide) ?_), ?_⟩
    · simp only [excessBits]; omega
    · by_cases h : Nat.log2 q ≤ 23
      · left; simp only [excessBits]; omega
      · right
        rwa [show excessBits q + 23 = Nat.log2 q by simp only [excessBits]; omega]

/-- Where the interval of the pattern `p` ends: the nearest pattern is at most `p` exactly below the point half way to
the next one, or at that point when `p` is even. -/
theorem roundMag_le_iff (num : Nat) {den : Nat} (hd : 0 < den) {p : Nat} (hp : p < 0x7F800000) :
    roundMag num den ≤ p ↔
      2 * num < (patMag p + patMag (p + 1)) * den ∨
        (2 * num = (patMag p + patMag (p + 1)) * den ∧ p % 2 = 0) := by
  obtain ⟨hq1, hq2⟩ := excessBits_spec (num / den)
  simp only [roundMag]
  generalize excessBits (num / den) = k at *
  obtain ⟨j, s, rfl, hs, hj⟩ := exists_significand p
  rw [min_le_iff, or_iff_left (by omega), patMag_succ hs hj, patMag_of_significand hs.le hj]
  have hk : 0 < den * 2 ^ k := by positivity
  have up : num < 2 ^ (k + 24) * den := by rwa [← Nat.div_lt_iff_lt_mul hd]
  have lo : k = 0 ∨ 2 ^ (k + 23) * den ≤ num :=
    hq2.imp_right fun h => (Nat.le_div_iff_mul_le hd).1 h
  have assoc : ∀ c, 2 ^ (k + c) * den = 2 ^ c * (den * 2 ^ k) := fun c => by rw [pow_add]; ring
  have tle : roundQuotient num (den * 2 ^ k) ≤ 2 ^ 24 := roundQuotient_le hk (by rw [← assoc]; exact up.le)
  have tge : k = 0 ∨ 2 ^ 23 ≤ roundQuotient num (den * 2 ^ k) :=
    lo.imp_right fun h => le_roundQuotient hk (by rw [← assoc]; exact h)
  rcases Nat.lt_trichotomy j k with h | h | h
  · -- the value lies above every value of exponent `j`
    have hk0 : k ≠ 0 := by omega
    have lo' := lo.resolve_left hk0
    have tge' := tge.resolve_left hk0
    have hpow : 2 ^ j * 2 ^ 24 ≤ 2 ^ (k + 23) := by
      rw [← pow_add]; exact Nat.pow_le_pow_right (by decide) (by omega)
    have hb : (s * 2 ^ j + (s + 1) * 2 ^ j) * den < 2 * num := by
      have h1 : s * 2 ^ j + (s + 1) * 2 ^ j < 2 * 2 ^ (k + 23) := by
        calc s * 2 ^ j + (s + 1) * 2 ^ j = (2 * s + 1) * 2 ^ j := by ring
          _ < 2 * 2 ^ 24 * 2 ^ j := Nat.mul_lt_mul_of_pos_right (by omega) (by positivity)
          _ = 2 * (2 ^ j * 2 ^ 24) := by ring
          _ ≤ _ := by omega
      calc (s * 2 ^ j + (s + 1) * 2 ^ j) * den < 2 * 2 ^ (k + 23) * den := Nat.mul_lt_mul_of_pos_right h1 hd
        _ = 2 * (2 ^ (k + 23) * den) := by ring
        _ ≤ 2 * num := by omega
    constructor
    · intro h'; omega
    · omega
  · subst h
    have e1 : (s * 2 ^ j + (s + 1) * 2 ^ j) * den = (2 * s + 1) * (den * 2 ^ j) := by ring
    have e2 : (j * 2 ^ 23 + s) % 2 = s % 2 := by omega
    rw [Nat.add_le_add_iff_left, roundQuotient_le_iff num hk, e1, e2]
  · have hs' : 2 ^ 23 ≤ s := by omega
    have hpow : 2 ^ (k + 24) ≤ 2 ^ j * 2 ^ 23 := by
      rw [← pow_add]; exact Nat.pow_le_pow_right (by decide) (by omega)
    have hb : 2 * num < (s * 2 ^ j + (s + 1) * 2 ^ j) * den := by
      have h1 : 2 * 2 ^ (k + 24) ≤ s * 2 ^ j + (s + 1) * 2 ^ j := by
        calc 2 * 2 ^ (k + 24) ≤ 2 * (2 ^ j * 2 ^ 23) := by omega
          _ = (2 * 2 ^ 23) * 2 ^ j := by ring
          _ ≤ (s + (s + 1)) * 2 ^ j := Nat.mul_le_mul_right _ (by omega)
          _ = _ := by ring
      calc 2 * num < 2 * (2 ^ (k + 24) * den) := by omega
        _ = 2 * 2 ^ (k + 24) * den := by ring
        _ ≤ _ := Nat.mul_le_mul_right _ h1
    simp only [hb, true_or, iff_true]
    omega

theorem roundMag_le_inf (num den : Nat) : roundMag num den ≤ 0x7F800000 := min_le_right _ _

theorem roundMag_lt (num den : Nat) : roundMag num den < 2 ^ 31 :=
  lt_of_le_of_lt (roundMag_le_inf num den) (by decide)

/-- `round32` is monotone (R192). -/
theorem roundMag_mono {n d n' d' : Nat} (hd : 0 < d) (hd' : 0 < d') (h : n * d' ≤ n' * d) :
    roundMag n d ≤ roundMag n' d' := by
  by_contra hc
  rw [not_le] at hc
  have hp : roundMag n' d' < 0x7F800000 := lt_of_lt_of_le hc (roundMag_le_inf _ _)
  have h1 := (roundMag_le_iff n' hd' hp).1 le_rfl
  refine absurd ((roundMag_le_iff n hd hp).2 ?_) (not_le.2 hc)
  generalize patMag (roundMag n' d') + patMag (roundMag n' d' + 1) = M at *
  rcases h1 with h1 | ⟨h1, h2⟩
  · left
    have : 2 * n * d' < M * d * d' := by nlinarith
    exact Nat.lt_of_mul_lt_mul_right this
  · have : 2 * n * d' ≤ M * d * d' := by nlinarith
    rcases Nat.lt_or_eq_of_le (Nat.le_of_mul_le_mul_right this hd') with h3 | h3
    · exact .inl h3
    · exact .inr ⟨h3, h2⟩

/-- `round32` is the identity on the values of patterns (R192). -/
theorem roundMag_exact {p den : Nat} (hd : 0 < den) (hp : p ≤ 0x7F800000) : roundMag (patMag p * den) den = p := by
  apply le_antisymm
  · rcases Nat.lt_or_eq_of_le hp with h | rfl
    · rw [roundMag_le_iff _ hd h]
      left
      have := patMag_lt_succ p
      nlinarith
    · exact roundMag_le_inf _ _
  · rcases p with _ | p
    · exact Nat.zero_le _
    · by_contra hc
      have h := (roundMag_le_iff (patMag (p + 1) * den) hd (p := p) (by omega)).1 (by omega)
      have := patMag_lt_succ p
      rcases h with h | ⟨h, _⟩ <;> nlinarith

theorem roundMag_exact_one {p : Nat} (hp : p ≤ 0x7F800000) : roundMag (patMag p) 1 = p := by
  simpa using roundMag_exact (den := 1) (by decide) hp

@[simp] theorem roundMag_zero {den : Nat} (hd : 0 < den) : roundMag 0 den = 0 := by
  have := roundMag_exact (p := 0) hd (Nat.zero_le _)
  rwa [patMag_zero, Nat.zero_mul] at this

/-- A whole number of at most 24 significant digits is the value of a pattern. -/
theorem exists_patMag (c j : Nat) (hc : c < 2 ^ 24) : ∃ p, patMag p = c * 2 ^ j ∧ p < (j + 2) * 2 ^ 23 := by
  induction j generalizing c with
  | zero => exact ⟨c, by simpa using patMag_of_significand (k := 0) hc.le (.inl rfl), by omega⟩
  | succ j ih =>
    by_cases h : 2 ^ 23 ≤ c
    · exact ⟨(j + 1) * 2 ^ 23 + c, patMag_of_significand hc.le (.inr h), by omega⟩
    · have h2c : 2 * c < 2 ^ 24 := by
        rw [not_le] at h
        calc 2 * c < 2 * 2 ^ 23 := by linarith
          _ = 2 ^ 24 := by norm_num
      obtain ⟨p, h1, h2⟩ := ih (2 * c) h2c
      exact ⟨p, by rw [h1, pow_succ]; ring, lt_of_lt_of_le h2 (Nat.mul_le_mul_right _ (by simp))⟩

/-- Such a number is not changed by rounding. -/
theorem patMag_roundMag_exact {c j : Nat} (hc : c < 2 ^ 24) (hj : j ≤ 253) :
    patMag (roundMag (c * 2 ^ j) 1) = c * 2 ^ j := by
  obtain ⟨p, h1, h2⟩ := exists_patMag c j hc
  rw [← h1, roundMag_exact_one]
  omega

end Sys2Proof.Machine
end

