-- ==== Sys2Proof/Laws/Arith.lean ====
section
/-! SUPPORT. Laws of the operations of 44_float_arithmetic: what each answers on finite operands, the exact conversions,
the exact remainder, and the legal phases as numbers. -/

namespace Sys2Proof.Machine

/-! Rounded results -/

@[simp] theorem signBit_round32 (neg : Bool) (num den : Nat) : signBit (round32 neg num den) = neg :=
  signBit_withSign neg (roundMag_lt num den)

@[simp] theorem lowBits_round32 (neg : Bool) (num den : Nat) : lowBits (round32 neg num den) = roundMag num den :=
  lowBits_withSign neg (roundMag_lt num den)

theorem mag_round32 (neg : Bool) (num den : Nat) : mag (round32 neg num den) = patMag (roundMag num den) := by
  rw [mag_eq_patMag, lowBits_round32]

/-- A rounded result is never a NaN. -/
@[simp] theorem isNaN_round32 (neg : Bool) (num den : Nat) : isNaN (round32 neg num den) = false := by
  rw [← Bool.not_eq_true, isNaN_iff, lowBits_round32]
  exact not_lt.2 (roundMag_le_inf num den)

/-- A rounded result is finite or infinite. -/
theorem isInf_round32 (neg : Bool) (num den : Nat) :
    isInf (round32 neg num den) = !isFinite (round32 neg num den) := by
  have h := roundMag_le_inf num den
  rw [← lowBits_round32 neg] at h
  rw [Bool.eq_iff_iff, Bool.not_eq_true', ← Bool.not_eq_true, isInf_iff, isFinite_iff]
  omega

@[simp] theorem lowBits_negate (w : Word) : lowBits (negate w) = lowBits w := by
  simp only [lowBits, negate, BitVec.toNat_xor, BitVec.toNat_ofNat, Nat.xor_mod_two_pow]
  simp

@[simp] theorem signBit_negate (w : Word) : signBit (negate w) = !signBit w := by
  simp [signBit, negate]

theorem mag_negate (w : Word) : mag (negate w) = mag w := by
  rw [mag_eq_patMag, mag_eq_patMag, lowBits_negate]

theorem units_negate (w : Word) : units (negate w) = -units w := by
  rw [units, units, signBit_negate, mag_negate]
  cases signBit w <;> simp

theorem isNaN_negate (w : Word) : isNaN (negate w) = isNaN w := by
  rw [Bool.eq_iff_iff, isNaN_iff, isNaN_iff, lowBits_negate]

theorem isFinite_negate (w : Word) : isFinite (negate w) = isFinite w := by
  rw [Bool.eq_iff_iff, isFinite_iff, isFinite_iff, lowBits_negate]

theorem isInf_negate (w : Word) : isInf (negate w) = isInf w := by
  rw [Bool.eq_iff_iff, isInf_iff, isInf_iff, lowBits_negate]

theorem isZero_negate (w : Word) : isZero (negate w) = isZero w := by
  rw [Bool.eq_iff_iff, isZero_iff, isZero_iff, lowBits_negate]

/-! The three kinds of pattern exclude one another -/

theorem isNaN_of_isFinite {w : Word} (h : isFinite w = true) : isNaN w = false := by
  rw [← Bool.not_eq_true, isNaN_iff]
  rw [isFinite_iff] at h
  omega

theorem isInf_of_isFinite {w : Word} (h : isFinite w = true) : isInf w = false := by
  rw [← Bool.not_eq_true, isInf_iff]
  rw [isFinite_iff] at h
  omega

theorem isFinite_of_isZero {w : Word} (h : isZero w = true) : isFinite w = true := by
  rw [isZero_iff] at h
  rw [isFinite_iff]
  omega

/-- A pattern is finite when it is neither a NaN nor an infinity. -/
theorem isFinite_of_not {w : Word} (h1 : isNaN w = false) (h2 : isInf w = false) : isFinite w = true := by
  rw [← Bool.not_eq_true, isNaN_iff] at h1
  rw [← Bool.not_eq_true, isInf_iff] at h2
  rw [isFinite_iff]
  omega

/-- A zero is `+0` or `−0`. -/
theorem eq_zero_of_isZero {w : Word} (h : isZero w = true) : w = if signBit w then negZero else posZero := by
  rw [isZero_iff] at h
  rw [← withSign_signBit_lowBits w, h]
  cases signBit w <;> decide

theorem eq_inf_of_isInf {w : Word} (h : isInf w = true) : w = if signBit w then negInf else posInf := by
  rw [isInf_iff] at h
  rw [← withSign_signBit_lowBits w, h]
  cases signBit w <;> decide

theorem units_eq_zero (w : Word) : units w = 0 ↔ isZero w = true := by
  rw [← mag_eq_zero, ← natAbs_units, Int.natAbs_eq_zero]

/-- A finite pattern with a value other than zero has the sign of its value. -/
theorem units_neg_iff (w : Word) : units w < 0 ↔ signBit w = true ∧ isZero w = false := by
  rw [← Bool.not_eq_true (isZero w), ← mag_eq_zero, units]
  cases signBit w
  · simp
  · simp; omega

/-- Two patterns of the same non-zero value are the same. -/
theorem eq_of_units_eq {v w : Word} (h : units v = units w) (hz : isZero w = false) : v = w := by
  have hv : isZero v = false := by
    rw [← Bool.not_eq_true, ← units_eq_zero] at hz ⊢
    rwa [h]
  apply word_ext
  · have h1 := units_neg_iff v
    have h2 := units_neg_iff w
    rw [h, h2] at h1
    simpa [hz, hv] using h1.symm
  · have : (units v).natAbs = (units w).natAbs := by rw [h]
    rwa [natAbs_units, natAbs_units, mag_eq_patMag, mag_eq_patMag, patMag_inj] at this

/-- Rounding the value of a finite or infinite pattern gives the pattern back, but for the sign of a zero. -/
theorem roundUnits_units {w : Word} (hn : isNaN w = false) (hz : isZero w = false) : roundUnits (units w) = w := by
  have hl : lowBits w ≤ 0x7F800000 := by
    rw [← Bool.not_eq_true, isNaN_iff] at hn
    omega
  apply word_ext
  · rw [roundUnits, signBit_round32, Bool.eq_iff_iff, decide_eq_true_iff, units_neg_iff]
    simp [hz]
  · rw [roundUnits, lowBits_round32, natAbs_units, mag_eq_patMag, roundMag_exact_one hl]

/-! Sums -/

/-- A sum of finite values (R193). -/
theorem fadd32_of_finite {a b : Word} (ha : isFinite a = true) (hb : isFinite b = true) :
    fadd32 a b =
      if units a + units b = 0 then if a = negZero ∧ b = negZero then negZero else posZero
      else roundUnits (units a + units b) := by
  rw [fadd32]
  simp only [isNaN_of_isFinite ha, isNaN_of_isFinite hb, isInf_of_isFinite ha, isInf_of_isFinite hb, Bool.or_self,
    Bool.and_self, Bool.false_eq_true, if_false]

/-- A NaN operand makes the sum `cNaN` (R193, R196). -/
theorem fadd32_nan {a b : Word} (h : isNaN a = true ∨ isNaN b = true) : fadd32 a b = cNaN := by
  rw [fadd32, if_pos (by simpa using h)]

theorem fsub32_nan {a b : Word} (h : isNaN a = true ∨ isNaN b = true) : fsub32 a b = cNaN :=
  fadd32_nan (by rwa [isNaN_negate])

theorem fmul32_nan {a b : Word} (h : isNaN a = true ∨ isNaN b = true) : fmul32 a b = cNaN := by
  rw [fmul32]
  exact if_pos (by simpa using h)

theorem fdiv32_nan {a b : Word} (h : isNaN a = true ∨ isNaN b = true) : fdiv32 a b = cNaN := by
  rw [fdiv32]
  exact if_pos (by simpa using h)

/-- When a non-zero sum of finite values is the value of a pattern, the sum is that pattern. -/
theorem fadd32_exact {a b w : Word} (ha : isFinite a = true) (hb : isFinite b = true) (hn : isNaN w = false)
    (hz : isZero w = false) (h : units a + units b = units w) : fadd32 a b = w := by
  rw [fadd32_of_finite ha hb, h, if_neg, roundUnits_units hn hz]
  rw [units_eq_zero, hz]
  exact Bool.false_ne_true

/-- A sum of finite values whose exact sum is at least zero has sign bit 0, unless both are `−0`. -/
theorem signBit_fadd32 {a b : Word} (ha : isFinite a = true) (hb : isFinite b = true) (h : 0 ≤ units a + units b)
    (hab : ¬(a = negZero ∧ b = negZero)) : signBit (fadd32 a b) = false := by
  rw [fadd32_of_finite ha hb]
  rw [if_neg hab]
  split
  · decide
  · rw [roundUnits, signBit_round32, decide_eq_false (not_lt.2 h)]

/-! Products and quotients -/

theorem fmul32_of_finite {a b : Word} (ha : isFinite a = true) (hb : isFinite b = true) :
    fmul32 a b =
      if isZero a || isZero b then withSign (signBit a ^^ signBit b) 0
      else round32 (signBit a ^^ signBit b) (mag a * mag b) unitsPerOne := by
  simp only [fmul32, isNaN_of_isFinite ha, isNaN_of_isFinite hb, isInf_of_isFinite ha, isInf_of_isFinite hb,
    Bool.or_self, Bool.and_false, Bool.false_and, Bool.false_eq_true, if_false]

theorem fdiv32_of_finite {a b : Word} (ha : isFinite a = true) (hb : isFinite b = true) (hz : isZero b = false) :
    fdiv32 a b =
      if isZero a then withSign (signBit a ^^ signBit b) 0
      else round32 (signBit a ^^ signBit b) (mag a * unitsPerOne) (mag b) := by
  simp only [fdiv32, isNaN_of_isFinite ha, isNaN_of_isFinite hb, isInf_of_isFinite ha, isInf_of_isFinite hb, hz,
    Bool.or_self, Bool.and_false, Bool.or_false, Bool.false_eq_true, if_false]

/-! Conversions -/

theorem unitsPerOne_pos : 0 < unitsPerOne := by unfold unitsPerOne; positivity

/-- `idx_to_f32` is exact (R202); so is `u32_to_f32` up to `2^24` (R201). -/
theorem mag_roundUnits_whole {i : Nat} (h : i < 2 ^ 24) : mag (roundUnits (i * unitsPerOne : Nat)) = i * unitsPerOne := by
  rw [roundUnits, mag_round32, Int.natAbs_natCast, unitsPerOne, patMag_roundMag_exact h (by decide)]

@[simp] theorem signBit_roundUnits_nat (n : Nat) : signBit (roundUnits n) = false := by
  rw [roundUnits, signBit_round32, decide_eq_false]
  omega

theorem mag_idxToF32 {i : Nat} (h : i < 2 ^ 24) : mag (idxToF32 i) = i * unitsPerOne := mag_roundUnits_whole h

@[simp] theorem signBit_idxToF32 (i : Nat) : signBit (idxToF32 i) = false := signBit_roundUnits_nat _

theorem units_of_pos {w : Word} (h : signBit w = false) : units w = mag w := by rw [units, h]; rfl

theorem units_idxToF32 {i : Nat} (h : i < 2 ^ 24) : units (idxToF32 i) = (i * unitsPerOne : Nat) := by
  rw [units_of_pos (signBit_idxToF32 i), mag_idxToF32 h]

@[simp] theorem isNaN_roundUnits (x : Int) : isNaN (roundUnits x) = false := isNaN_round32 _ _ _

/-- The magnitude of a pattern tells whether it is finite. -/
theorem isFinite_of_mag_lt {w : Word} (h : mag w < 2 ^ 128 * unitsPerOne) : isFinite w = true := by
  rw [isFinite_iff]
  rw [mag_eq_patMag] at h
  by_contra hc
  have h1 : patMag 0x7F800000 ≤ patMag (lowBits w) := patMag_le.2 (not_lt.1 hc)
  have h2 : patMag 0x7F800000 = 2 ^ 128 * unitsPerOne := by decide
  omega

theorem mag_lt_of_isFinite {w : Word} (h : isFinite w = true) : mag w < 2 ^ 128 * unitsPerOne := by
  rw [isFinite_iff] at h
  have h1 := patMag_lt.2 h
  have h2 : patMag 0x7F800000 = 2 ^ 128 * unitsPerOne := by decide
  rw [mag_eq_patMag]
  omega

theorem isFinite_idxToF32 {i : Nat} (h : i < 2 ^ 24) : isFinite (idxToF32 i) = true := by
  apply isFinite_of_mag_lt
  rw [mag_idxToF32 h]
  exact Nat.mul_lt_mul_of_pos_right (lt_trans h (by norm_num)) unitsPerOne_pos

/-! The exact remainder -/

/-- A magnitude is a whole number of units in the last place of every pattern not above it. -/
theorem patMag_mod_exact (p q : Nat) (hq : 0 < q) (hq' : q < 0x7F800000) :
    patMag (roundMag (patMag p % patMag q) 1) = patMag p % patMag q := by
  have hpos : 0 < patMag q := by rw [← patMag_zero, patMag_lt]; exact hq
  rcases Nat.lt_or_ge p q with h | h
  · rw [Nat.mod_eq_of_lt (patMag_lt.2 h), roundMag_exact_one (by omega)]
  · obtain ⟨j, s, rfl, hs, hj⟩ := exists_significand q
    obtain ⟨k, t, rfl, ht, hk⟩ := exists_significand p
    have hjk : j ≤ k := by omega
    obtain ⟨d, rfl⟩ := Nat.exists_eq_add_of_le hjk
    rw [patMag_of_significand hs.le hj, patMag_of_significand ht.le hk] at *
    have e : t * 2 ^ (j + d) % (s * 2 ^ j) = (t * 2 ^ d) % s * 2 ^ j := by
      rw [pow_add, ← Nat.mul_mod_mul_right]
      congr 1
      ring
    have hs0 : 0 < s := Nat.pos_of_mul_pos_right hpos
    rw [e, patMag_roundMag_exact (lt_trans (Nat.mod_lt _ hs0) hs) (by omega)]

/-- `frem_exact` rounds nothing (R199). -/
theorem mag_fremExact {a b : Word} (hb : isFinite b = true) (hz : isZero b = false) :
    mag (fremExact a b) = mag a % mag b := by
  rw [fremExact, mag_round32, mag_eq_patMag a, mag_eq_patMag b]
  refine patMag_mod_exact _ _ ?_ ((isFinite_iff b).1 hb)
  rw [← Bool.not_eq_true, isZero_iff] at hz
  omega

@[simp] theorem signBit_fremExact (a b : Word) : signBit (fremExact a b) = signBit a := signBit_round32 _ _ _

/-! Legal phases -/

/-- A table size a configuration can have (R8). -/
def legalSize (n : Nat) : Prop := 1 ≤ n ∧ n ≤ 65536

theorem legalSize.lt {n : Nat} (h : legalSize n) : n < 2 ^ 24 := by
  have := h.2
  omega

theorem mag_Nf {n : Nat} (h : legalSize n) : mag (Nf n) = n * unitsPerOne := mag_idxToF32 h.lt

theorem isFinite_Nf {n : Nat} (h : legalSize n) : isFinite (Nf n) = true := isFinite_idxToF32 h.lt

@[simp] theorem isNaN_Nf (n : Nat) : isNaN (Nf n) = false := isNaN_roundUnits _

@[simp] theorem signBit_Nf (n : Nat) : signBit (Nf n) = false := signBit_idxToF32 n

theorem isZero_Nf {n : Nat} (h : legalSize n) : isZero (Nf n) = false := by
  rw [← Bool.not_eq_true, ← mag_eq_zero, mag_Nf h]
  have := unitsPerOne_pos
  have := Nat.mul_pos h.1 this
  omega

theorem ltF_of_pos {a b : Word} (ha : isNaN a = false) (hb : isNaN b = false) (hsa : signBit a = false)
    (hsb : signBit b = false) : ltF a b = decide (mag a < mag b) := by
  rw [ltF, ha, hb, units_of_pos hsa, units_of_pos hsb]
  simp

/-- The legal phases (R16, R22) as numbers. -/
theorem legalPhase_iff {n : Nat} (hn : legalSize n) (x : Word) :
    legalPhase n x = true ↔ x = cNaN ∨ (isFinite x = true ∧ signBit x = false ∧ mag x < n * unitsPerOne) := by
  rw [legalPhase, Bool.or_eq_true, beq_iff_eq, Bool.and_eq_true, Bool.and_eq_true, Bool.not_eq_true']
  refine or_congr_right ⟨fun ⟨⟨h1, h2⟩, h3⟩ => ⟨h1, h2, ?_⟩, fun ⟨h1, h2, h3⟩ => ⟨⟨h1, h2⟩, ?_⟩⟩
  · rw [ltF_of_pos (isNaN_of_isFinite h1) (isNaN_Nf n) h2 (signBit_Nf n), decide_eq_true_iff, mag_Nf hn] at h3
    exact h3
  · rw [ltF_of_pos (isNaN_of_isFinite h1) (isNaN_Nf n) h2 (signBit_Nf n), decide_eq_true_iff, mag_Nf hn]
    exact h3

end Sys2Proof.Machine
end

