-- ==== Sys2Proof/Laws/Advance.lean ====
section
/-! SUPPORT. What `Advance` (42_phase_accumulator R134) answers, case by case. -/

namespace Sys2Proof.Machine

/-- A non-finite sum gives `cNaN` (R134). -/
theorem advance_of_not_finite {n : Nat} {phase inc : Word} (h : isFinite (fadd32 phase inc) = false) :
    advance n phase inc = cNaN := by
  simp only [advance]
  rw [if_pos]
  by_contra hc
  rw [Bool.or_eq_true, not_or, Bool.not_eq_true, Bool.not_eq_true] at hc
  rw [isFinite_of_not hc.1 hc.2] at h
  exact Bool.noConfusion h

theorem units_posZero : units posZero = 0 := by decide

theorem isNaN_fremExact (a b : Word) : isNaN (fremExact a b) = false := isNaN_round32 _ _ _

/-- A finite sum that is at least zero is reduced exactly (R134, first and second case). -/
theorem advance_of_nonneg {n : Nat} (hn : legalSize n) {phase inc : Word} (hf : isFinite (fadd32 phase inc) = true)
    (h : 0 ≤ units (fadd32 phase inc)) :
    signBit (advance n phase inc) = false ∧
      mag (advance n phase inc) = mag (fadd32 phase inc) % (n * unitsPerOne) := by
  have hm := mag_fremExact (a := fadd32 phase inc) (isFinite_Nf hn) (isZero_Nf hn)
  rw [mag_Nf hn] at hm
  have hs := signBit_fremExact (fadd32 phase inc) (Nf n)
  have hnan := isNaN_fremExact (fadd32 phase inc) (Nf n)
  simp only [advance]
  generalize fadd32 phase inc = s at *
  rw [if_neg (by rw [isNaN_of_isFinite hf, isInf_of_isFinite hf]; decide)]
  generalize fremExact s (Nf n) = r at *
  have hzero : isNaN posZero = false := by decide
  by_cases hz : isZero r = true
  · have h0 : units r = 0 := (units_eq_zero r).2 hz
    have hg : gtF r posZero = false := by simp [gtF, ltF, h0, units_posZero]
    have he : eqF r posZero = true := by simp [eqF, h0, units_posZero, hnan, hzero]
    rw [hg, he, if_neg Bool.false_ne_true, if_pos rfl]
    rw [(mag_eq_zero r).2 hz] at hm
    exact ⟨by decide, by rw [← hm]; decide⟩
  · rw [Bool.not_eq_true] at hz
    have hsz : isZero s = false := by
      rw [← Bool.not_eq_true, ← mag_eq_zero]
      intro h0
      rw [h0, Nat.zero_mod, mag_eq_zero, hz] at hm
      exact Bool.noConfusion hm
    have hsr : signBit r = false := by
      rw [hs, ← Bool.not_eq_true]
      intro h1
      exact absurd ((units_neg_iff s).2 ⟨h1, hsz⟩) (not_lt.2 h)
    have hpos : 0 < units r := by
      have h1 : units r ≠ 0 := by rw [Ne, units_eq_zero, hz]; exact Bool.false_ne_true
      rw [units_of_pos hsr] at h1 ⊢
      omega
    have hg : gtF r posZero = true := by simp [gtF, ltF, hpos, units_posZero, hnan, hzero]
    rw [hg, if_pos rfl]
    exact ⟨hsr, hm⟩

/-- The floored modulo of a negative number from the truncated one. -/
theorem neg_emod_of_pos {m M : Nat} (h : 0 < m % M) : -(m : Int) % (M : Int) = (M : Int) - ((m % M : Nat) : Int) := by
  rcases Nat.eq_zero_or_pos M with rfl | hM
  · simp
  have h2 := Nat.mod_lt m hM
  have h3 : (m : Int) = M * (m / M : Nat) + (m % M : Nat) := by exact_mod_cast (Nat.div_add_mod m M).symm
  have h4 : -(m : Int) = ((M : Int) - ((m % M : Nat) : Int)) + M * (-((m / M : Nat) : Int) - 1) := by
    rw [h3]; push_cast; ring
  rw [h4, Int.add_mul_emod_self_left]
  exact Int.emod_eq_of_lt (by omega) (by omega)

/-- A finite sum below zero: the floored modulo, rounded once, and `+0` where that gives `N` (R134, second and third
case). -/
theorem advance_of_neg {n : Nat} (hn : legalSize n) {phase inc : Word} (hf : isFinite (fadd32 phase inc) = true)
    (h : units (fadd32 phase inc) < 0) :
    advance n phase inc =
      if roundUnits (units (fadd32 phase inc) % (n * unitsPerOne : Nat)) = Nf n then posZero
      else roundUnits (units (fadd32 phase inc) % (n * unitsPerOne : Nat)) := by
  have hm := mag_fremExact (a := fadd32 phase inc) (isFinite_Nf hn) (isZero_Nf hn)
  rw [mag_Nf hn] at hm
  have hs := signBit_fremExact (fadd32 phase inc) (Nf n)
  have hnan := isNaN_fremExact (fadd32 phase inc) (Nf n)
  have hM : 0 < n * unitsPerOne := Nat.mul_pos hn.1 unitsPerOne_pos
  have hNf : units (Nf n) = (n * unitsPerOne : Nat) := units_idxToF32 hn.lt
  have hMlt : n * unitsPerOne < 2 ^ 128 * unitsPerOne :=
    Nat.mul_lt_mul_of_pos_right (lt_trans hn.lt (by norm_num)) unitsPerOne_pos
  simp only [advance]
  generalize fadd32 phase inc = s at *
  rw [if_neg (by rw [isNaN_of_isFinite hf, isInf_of_isFinite hf]; decide)]
  have hsu : units s = -(mag s : Int) := by rw [units, ((units_neg_iff s).1 h).1]; rfl
  have hrf : isFinite (fremExact s (Nf n)) = true :=
    isFinite_of_mag_lt (by rw [hm]; exact lt_trans (Nat.mod_lt _ hM) hMlt)
  have hNz := isZero_Nf hn
  have hNfin := isFinite_Nf hn
  have hNn := isNaN_Nf n
  generalize fremExact s (Nf n) = r at *
  generalize Nf n = N at *
  generalize n * unitsPerOne = M at *
  have hzero : isNaN posZero = false := by decide
  by_cases hz : isZero r = true
  · have h0 : units r = 0 := (units_eq_zero r).2 hz
    have hg : gtF r posZero = false := by simp [gtF, ltF, h0, units_posZero]
    have he : eqF r posZero = true := by simp [eqF, h0, units_posZero, hnan, hzero]
    rw [hg, he, if_neg Bool.false_ne_true, if_pos rfl]
    rw [(mag_eq_zero r).2 hz] at hm
    have hx : units s % (M : Int) = 0 := by
      rw [hsu]
      apply Int.emod_eq_zero_of_dvd
      exact (Int.dvd_neg).2 (by exact_mod_cast Nat.dvd_of_mod_eq_zero hm.symm)
    have h1 : roundUnits 0 = posZero := by decide
    rw [hx, h1, ite_self]
  · rw [Bool.not_eq_true] at hz
    have hsr : signBit r = true := by rw [hs]; exact ((units_neg_iff s).1 h).1
    have hrneg : units r < 0 := (units_neg_iff r).2 ⟨hsr, hz⟩
    have hru : units r = -((mag s % M : Nat) : Int) := by rw [units, hsr, ← hm]; rfl
    have hpos : 0 < mag s % M := by omega
    have hx : units s % (M : Int) = units r + units N := by
      rw [hsu, neg_emod_of_pos hpos, hNf, hru]
      ring
    have hg : gtF r posZero = false := by
      rw [gtF, ltF, units_posZero, decide_eq_false (by omega), Bool.and_false]
    have he : eqF r posZero = false := by
      rw [eqF, units_posZero, decide_eq_false (by omega), Bool.and_false]
    have hxpos : units r + units N ≠ 0 := by
      have h2 := Nat.mod_lt (mag s) hM
      omega
    have ht : fadd32 r N = roundUnits (units s % (M : Int)) := by
      rw [fadd32_of_finite hrf hNfin, if_neg hxpos, hx]
    rw [hg, he, if_neg Bool.false_ne_true, if_neg Bool.false_ne_true, ht]
    refine if_congr ⟨fun h1 => ?_, fun h1 => ?_⟩ rfl rfl
    · rw [eqF, Bool.and_eq_true, decide_eq_true_iff] at h1
      exact eq_of_units_eq h1.2 hNz
    · rw [h1, eqF, hNn]
      simp

/-- `Advance` returns a legal phase whatever it is given. -/
theorem legalPhase_advance {n : Nat} (hn : legalSize n) (phase inc : Word) :
    legalPhase n (advance n phase inc) = true := by
  rw [legalPhase_iff hn]
  have hM : 0 < n * unitsPerOne := Nat.mul_pos hn.1 unitsPerOne_pos
  have hMlt : n * unitsPerOne < 2 ^ 128 * unitsPerOne :=
    Nat.mul_lt_mul_of_pos_right (lt_trans hn.lt (by norm_num)) unitsPerOne_pos
  by_cases hf : isFinite (fadd32 phase inc) = true
  · right
    by_cases h : 0 ≤ units (fadd32 phase inc)
    · obtain ⟨h1, h2⟩ := advance_of_nonneg hn hf h
      have h3 : mag (advance n phase inc) < n * unitsPerOne := by rw [h2]; exact Nat.mod_lt _ hM
      exact ⟨isFinite_of_mag_lt (lt_trans h3 hMlt), h1, h3⟩
    · rw [advance_of_neg hn hf (not_le.1 h)]
      have hlt := Int.emod_lt_of_pos (units (fadd32 phase inc)) (b := (n * unitsPerOne : Nat)) (by omega)
      have hge := Int.emod_nonneg (units (fadd32 phase inc)) (b := (n * unitsPerOne : Nat)) (by omega)
      generalize units (fadd32 phase inc) % (n * unitsPerOne : Nat) = x at *
      obtain ⟨m, rfl⟩ := Int.eq_ofNat_of_zero_le hge
      split
      · exact ⟨by decide, by decide, by rw [show mag posZero = 0 by decide]; exact hM⟩
      · rename_i hne
        have hle : lowBits (roundUnits m) ≤ lowBits (Nf n) := by
          rw [Nf, idxToF32, roundUnits, roundUnits, lowBits_round32, lowBits_round32]
          apply roundMag_mono Nat.one_pos Nat.one_pos
          simp only [Int.natAbs_natCast]
          omega
        have hlt' : lowBits (roundUnits m) < lowBits (Nf n) := by
          refine lt_of_le_of_ne hle fun h0 => hne (word_ext ?_ h0)
          rw [signBit_roundUnits_nat, signBit_Nf]
        have h3 : mag (roundUnits m) < n * unitsPerOne := by
          rw [← mag_Nf hn, mag_eq_patMag, mag_eq_patMag]
          exact patMag_lt.2 hlt'
        exact ⟨isFinite_of_mag_lt (lt_trans h3 hMlt), signBit_roundUnits_nat m, h3⟩
  · left
    exact advance_of_not_finite (by simpa using hf)

end Sys2Proof.Machine
end

