-- ==== Sys2Proof/Laws/State.lean ====
section
/-! SUPPORT. One lemma per field per update of State, each true by definition, so that no later proof unfolds one. -/

namespace Sys2Proof.Machine

@[simp] theorem respond_cfg (s : State) (st : Status) (d : Word) : (s.respond st d).cfg = s.cfg := rfl
@[simp] theorem respond_phase (s : State) (st : Status) (d : Word) : (s.respond st d).phase = s.phase := rfl
@[simp] theorem respond_phaseIncrement (s : State) (st : Status) (d : Word) : (s.respond st d).phaseIncrement = s.phaseIncrement := rfl
@[simp] theorem respond_sampleRate (s : State) (st : Status) (d : Word) : (s.respond st d).sampleRate = s.sampleRate := rfl
@[simp] theorem respond_table (s : State) (st : Status) (d : Word) : (s.respond st d).table = s.table := rfl
@[simp] theorem respond_inputs (s : State) (st : Status) (d : Word) : (s.respond st d).inputs = s.inputs := rfl
@[simp] theorem respond_responses (s : State) (st : Status) (d : Word) : (s.respond st d).responses = s.responses ++ [⟨st, d⟩] := rfl

@[simp] theorem raise_cfg (s : State) (e : CommandError) : (s.raise e).cfg = s.cfg := rfl
@[simp] theorem raise_phase (s : State) (e : CommandError) : (s.raise e).phase = s.phase := rfl
@[simp] theorem raise_phaseIncrement (s : State) (e : CommandError) : (s.raise e).phaseIncrement = s.phaseIncrement := rfl
@[simp] theorem raise_sampleRate (s : State) (e : CommandError) : (s.raise e).sampleRate = s.sampleRate := rfl
@[simp] theorem raise_table (s : State) (e : CommandError) : (s.raise e).table = s.table := rfl
@[simp] theorem raise_inputs (s : State) (e : CommandError) : (s.raise e).inputs = s.inputs := rfl
@[simp] theorem raise_responses (s : State) (e : CommandError) : (s.raise e).responses = s.responses ++ [⟨e.status, e.info⟩] := rfl

@[simp] theorem deliver_cfg (s : State) : (s.deliver).cfg = s.cfg := rfl
@[simp] theorem deliver_phase (s : State) : (s.deliver).phase = s.phase := rfl
@[simp] theorem deliver_phaseIncrement (s : State) : (s.deliver).phaseIncrement = s.phaseIncrement := rfl
@[simp] theorem deliver_sampleRate (s : State) : (s.deliver).sampleRate = s.sampleRate := rfl
@[simp] theorem deliver_table (s : State) : (s.deliver).table = s.table := rfl
@[simp] theorem deliver_inputs (s : State) : (s.deliver).inputs = s.inputs := rfl
@[simp] theorem deliver_responses (s : State) : (s.deliver).responses = s.responses.tail := rfl

@[simp] theorem applyReset_cfg (s : State) : (s.applyReset).cfg = s.cfg := rfl
@[simp] theorem applyReset_phase (s : State) : (s.applyReset).phase = 0x00000000#32 := rfl
@[simp] theorem applyReset_phaseIncrement (s : State) : (s.applyReset).phaseIncrement = 0x00000000#32 := rfl
@[simp] theorem applyReset_sampleRate (s : State) : (s.applyReset).sampleRate = s.cfg.sampleRate := rfl
@[simp] theorem applyReset_table (s : State) : (s.applyReset).table = [] := rfl
@[simp] theorem applyReset_inputs (s : State) : (s.applyReset).inputs = s.inputs := rfl
@[simp] theorem applyReset_responses (s : State) : (s.applyReset).responses = [] := rfl

@[simp] theorem resetFor_cfg (c : Config) : (State.resetFor c).cfg = c := rfl
@[simp] theorem resetFor_phase (c : Config) : (State.resetFor c).phase = 0x00000000#32 := rfl
@[simp] theorem resetFor_phaseIncrement (c : Config) : (State.resetFor c).phaseIncrement = 0x00000000#32 := rfl
@[simp] theorem resetFor_sampleRate (c : Config) : (State.resetFor c).sampleRate = c.sampleRate := rfl
@[simp] theorem resetFor_table (c : Config) : (State.resetFor c).table = [] := rfl
@[simp] theorem resetFor_inputs (c : Config) : (State.resetFor c).inputs = [] := rfl
@[simp] theorem resetFor_responses (c : Config) : (State.resetFor c).responses = [] := rfl

@[simp] theorem takeResponse_cfg (s : State) (r : Bool) : (s.takeResponse r).cfg = s.cfg := by
  cases r <;> rfl
@[simp] theorem takeResponse_phase (s : State) (r : Bool) : (s.takeResponse r).phase = s.phase := by
  cases r <;> rfl
@[simp] theorem takeResponse_phaseIncrement (s : State) (r : Bool) : (s.takeResponse r).phaseIncrement = s.phaseIncrement := by
  cases r <;> rfl
@[simp] theorem takeResponse_sampleRate (s : State) (r : Bool) : (s.takeResponse r).sampleRate = s.sampleRate := by
  cases r <;> rfl
@[simp] theorem takeResponse_table (s : State) (r : Bool) : (s.takeResponse r).table = s.table := by
  cases r <;> rfl
@[simp] theorem takeResponse_inputs (s : State) (r : Bool) : (s.takeResponse r).inputs = s.inputs := by
  cases r <;> rfl
@[simp] theorem takeResponse_responses (s : State) (r : Bool) : (s.takeResponse r).responses = if r then s.responses.tail else s.responses := by
  cases r <;> rfl

@[simp] theorem withFetchWord_cfg (s : State) (n w : Nat) : (s.withFetchWord n w).cfg = s.cfg := rfl
@[simp] theorem withFetchWord_phase (s : State) (n w : Nat) : (s.withFetchWord n w).phase = s.phase := rfl
@[simp] theorem withFetchWord_phaseIncrement (s : State) (n w : Nat) : (s.withFetchWord n w).phaseIncrement = s.phaseIncrement := rfl
@[simp] theorem withFetchWord_sampleRate (s : State) (n w : Nat) : (s.withFetchWord n w).sampleRate = s.sampleRate := rfl
@[simp] theorem withFetchWord_table (s : State) (n w : Nat) : (s.withFetchWord n w).table = s.table := rfl
@[simp] theorem withFetchWord_inputs (s : State) (n w : Nat) : (s.withFetchWord n w).inputs = commandEdge (commandOfBits n w) :: s.inputs := rfl
@[simp] theorem withFetchWord_responses (s : State) (n w : Nat) : (s.withFetchWord n w).responses = s.responses := rfl

@[simp] theorem commandEdge_rst (w : Command) : (commandEdge w).rst = false := rfl
@[simp] theorem commandEdge_cmd (w : Command) : (commandEdge w).cmd = some w := rfl
@[simp] theorem commandEdge_rspReady (w : Command) : (commandEdge w).rspReady = false := rfl

end Sys2Proof.Machine
end

