-- ==== Sys2Proof/Laws/Memory.lean ====
section
/-! SUPPORT. Laws of the wave table (20_memory R42, R43): reads after writes, the canonical form, and that tables in
canonical form are determined by what they read as. -/

namespace Sys2Proof.Machine

variable (c : Config)

theorem hasLength_iff (n : Nat) (ws : List Word) : hasLength n ws = true ↔ ws.length = n := by
  induction n generalizing ws with
  | zero => cases ws <;> simp [hasLength]
  | succ n ih => cases ws <;> simp [hasLength, ih]

/-- The legal configurations, spelt out (R8). -/
theorem Config.legal_iff (c : Config) :
    c.legal = true ↔ 1 ≤ c.tableSize ∧ c.tableSize ≤ 65536 ∧ c.sampleRate ≠ 0 ∧ c.tableInit.length = c.tableSize := by
  simp only [Config.legal, Bool.and_eq_true, decide_eq_true_iff, hasLength_iff, and_assoc]

theorem Memory.read_list_same (i : Nat) (v : Word) (m : Memory) (h : Memory.read c m i = Memory.unlisted c i) :
    Memory.read c (Memory.list c i v m) i = v := by
  by_cases hv : v = Memory.unlisted c i <;> simp [Memory.list, Memory.read, hv, h]

theorem Memory.read_list_other {i j : Nat} (v : Word) (m : Memory) (h : j ≠ i) :
    Memory.read c (Memory.list c i v m) j = Memory.read c m j := by
  by_cases hv : v = Memory.unlisted c i <;> simp [Memory.list, Memory.read, hv, h]

/-- What stands below a bound is not listed above it. -/
theorem Memory.read_of_lt {low i : Nat} {m : Memory} (h : Memory.wfFrom c low m = true) (hi : i < low) :
    Memory.read c m i = Memory.unlisted c i := by
  induction m generalizing low with
  | nil => rfl
  | cons e m ih =>
    obtain ⟨j, v⟩ := e
    simp only [Memory.wfFrom, Bool.and_eq_true, decide_eq_true_iff] at h
    rw [Memory.read, if_neg (by omega)]
    exact ih h.2 (by omega)

theorem Memory.wfFrom_mono {low low' : Nat} {m : Memory} (h : Memory.wfFrom c low m = true) (hl : low' ≤ low) :
    Memory.wfFrom c low' m = true := by
  cases m with
  | nil => rfl
  | cons e m =>
    obtain ⟨j, v⟩ := e
    simp only [Memory.wfFrom, Bool.and_eq_true, decide_eq_true_iff] at h ⊢
    exact ⟨⟨⟨by omega, h.1.1.2⟩, h.1.2⟩, h.2⟩

theorem Memory.wfFrom_list {low i : Nat} (v : Word) {m : Memory} (h : Memory.wfFrom c (i + 1) m = true) (hl : low ≤ i)
    (hi : i < c.tableSize) : Memory.wfFrom c low (Memory.list c i v m) = true := by
  unfold Memory.list
  split
  · exact Memory.wfFrom_mono c h (by omega)
  · rename_i hv
    simp [Memory.wfFrom, hl, hi, hv, h]

/-- A write reads back (R42, R43). -/
theorem Memory.read_write_same {low : Nat} {m : Memory} (h : Memory.wfFrom c low m = true) (i : Nat) (v : Word) :
    Memory.read c (Memory.write c i v m) i = v := by
  induction m generalizing low with
  | nil => exact Memory.read_list_same c i v [] rfl
  | cons e m ih =>
    obtain ⟨j, w⟩ := e
    have h' := h
    simp only [Memory.wfFrom, Bool.and_eq_true, decide_eq_true_iff] at h
    unfold Memory.write
    split
    · rename_i hij
      exact Memory.read_list_same c i v _
        (Memory.read_of_lt c (low := j) (by simp only [Memory.wfFrom, Bool.and_eq_true, decide_eq_true_iff]
                                            exact ⟨⟨⟨le_rfl, h.1.1.2⟩, h.1.2⟩, h.2⟩) hij)
    · split
      · rename_i hij
        subst hij
        exact Memory.read_list_same c i v m (Memory.read_of_lt c h.2 (by omega))
      · rename_i hij
        rw [Memory.read, if_neg hij]
        exact ih h.2

/-- A write leaves every other entry alone (R43). -/
theorem Memory.read_write_other {i j : Nat} (v : Word) (m : Memory) (hj : j ≠ i) :
    Memory.read c (Memory.write c i v m) j = Memory.read c m j := by
  induction m with
  | nil => exact Memory.read_list_other c v [] hj
  | cons e m ih =>
    obtain ⟨k, w⟩ := e
    unfold Memory.write
    split
    · exact Memory.read_list_other c v _ hj
    · split
      · rename_i hik
        subst hik
        rw [Memory.read_list_other c v m hj, Memory.read, if_neg hj]
      · rw [Memory.read, Memory.read, ih]

theorem Memory.wfFrom_write {low i : Nat} (v : Word) {m : Memory} (h : Memory.wfFrom c low m = true) (hl : low ≤ i)
    (hi : i < c.tableSize) : Memory.wfFrom c low (Memory.write c i v m) = true := by
  induction m generalizing low with
  | nil => exact Memory.wfFrom_list c v rfl hl hi
  | cons e m ih =>
    obtain ⟨j, w⟩ := e
    have h' := h
    simp only [Memory.wfFrom, Bool.and_eq_true, decide_eq_true_iff] at h
    unfold Memory.write
    split
    · apply Memory.wfFrom_list c v _ hl hi
      simp only [Memory.wfFrom, Bool.and_eq_true, decide_eq_true_iff]
      exact ⟨⟨⟨by omega, h.1.1.2⟩, h.1.2⟩, h.2⟩
    · split
      · rename_i hij
        subst hij
        exact Memory.wfFrom_list c v h.2 hl hi
      · simp only [Memory.wfFrom, Bool.and_eq_true, decide_eq_true_iff]
        exact ⟨h.1, ih h.2 (by omega)⟩

/-- Every write keeps the canonical form. -/
theorem Memory.wf_write {i : Nat} (v : Word) {m : Memory} (h : Memory.wf c m = true) (hi : i < c.tableSize) :
    Memory.wf c (Memory.write c i v m) = true :=
  Memory.wfFrom_write c v h (Nat.zero_le i) hi

@[simp] theorem Memory.wf_nil : Memory.wf c [] = true := rfl

theorem Memory.wfFrom_ext {low : Nat} {m m' : Memory} (h : Memory.wfFrom c low m = true)
    (h' : Memory.wfFrom c low m' = true) (hr : ∀ i < c.tableSize, Memory.read c m i = Memory.read c m' i) : m = m' := by
  induction m generalizing low m' with
  | nil =>
    cases m' with
    | nil => rfl
    | cons e m' =>
      obtain ⟨j, v⟩ := e
      simp only [Memory.wfFrom, Bool.and_eq_true, decide_eq_true_iff] at h'
      have := hr j h'.1.1.2
      rw [Memory.read, Memory.read, if_pos rfl] at this
      exact absurd this.symm h'.1.2
  | cons e m ih =>
    obtain ⟨j, v⟩ := e
    have h0 := h
    simp only [Memory.wfFrom, Bool.and_eq_true, decide_eq_true_iff] at h
    cases m' with
    | nil =>
      have := hr j h.1.1.2
      rw [Memory.read, Memory.read, if_pos rfl] at this
      exact absurd this h.1.2
    | cons e' m' =>
      obtain ⟨k, w⟩ := e'
      have h0' := h'
      simp only [Memory.wfFrom, Bool.and_eq_true, decide_eq_true_iff] at h'
      have hjk : j = k := by
        rcases Nat.lt_trichotomy j k with hlt | heq | hgt
        · have := hr j h.1.1.2
          rw [Memory.read, if_pos rfl, Memory.read, if_neg (by omega),
            Memory.read_of_lt c h'.2 (by omega)] at this
          exact absurd this h.1.2
        · exact heq
        · have := hr k h'.1.1.2
          rw [Memory.read, if_neg (by omega), Memory.read_of_lt c h.2 (by omega), Memory.read, if_pos rfl] at this
          exact absurd this.symm h'.1.2
      subst hjk
      have hv : v = w := by
        have := hr j h.1.1.2
        rwa [Memory.read, if_pos rfl, Memory.read, if_pos rfl] at this
      subst hv
      congr 1
      apply ih h.2 h'.2
      intro i hi
      by_cases hij : i < j + 1
      · rw [Memory.read_of_lt c h.2 hij, Memory.read_of_lt c h'.2 hij]
      · have := hr i hi
        rwa [Memory.read, if_neg (by omega), Memory.read, if_neg (by omega)] at this

/-- Tables in canonical form that read alike are the same list. -/
theorem Memory.wf_ext {m m' : Memory} (h : Memory.wf c m = true) (h' : Memory.wf c m' = true)
    (hr : ∀ i < c.tableSize, Memory.read c m i = Memory.read c m' i) : m = m' :=
  Memory.wfFrom_ext c h h' hr

end Sys2Proof.Machine
end

