-- ==== Sys2Proof/Laws/Exec.lean ====
section
/-! SUPPORT. One lemma per shared operation, per meaning and per step that says everything it can do. -/

namespace Sys2Proof.Machine

theorem legalSize_of_legal {c : Config} (h : c.legal = true) : legalSize c.tableSize :=
  ⟨((Config.legal_iff c).1 h).1, ((Config.legal_iff c).1 h).2.1⟩

theorem memRead_of_lt {s : State} {i : Nat} (h : i < s.cfg.tableSize) :
    s.memRead i = .ok (Memory.read s.cfg s.table i) := if_pos h

theorem memWrite_of_lt {s : State} {i : Nat} (v : Word) (h : i < s.cfg.tableSize) :
    s.memWrite i v = .ok { s with table := Memory.write s.cfg i v s.table } := if_pos h

/-- The whole meaning of WRT (R111). -/
theorem execWrt_eq (idx : Index) (data : Word) (s : State) :
    execWrt idx data s =
      if s.cfg.tableSize ≤ idx.toNat then .next (s.raise (.badIndex idx))
      else .next (State.respond { s with table := Memory.write s.cfg idx.toNat data s.table } .ok 0) := by
  unfold execWrt
  split
  · rfl
  · rename_i h
    rw [memWrite_of_lt data (not_le.1 h)]

/-- `base_index` of a legal phase (R161, R203). -/
def baseIndex (phase : Word) : Nat := if isNaN phase then 0 else mag phase / unitsPerOne

theorem f32ToIdx_of_legal {n : Nat} {x : Word} (h : legalPhase n x = true) : f32ToIdx n x = .ok (baseIndex x) := by
  rw [f32ToIdx, if_pos h, baseIndex]
  split <;> rfl

theorem isNaN_cNaN : isNaN cNaN = true := by decide

/-- Both indices of `Lerp` are in the table. -/
theorem baseIndex_lt {n : Nat} (hn : legalSize n) {x : Word} (h : legalPhase n x = true) : baseIndex x < n := by
  have hn1 := hn.1
  rcases (legalPhase_iff hn x).1 h with rfl | ⟨h1, _, h3⟩
  · rw [baseIndex, if_pos isNaN_cNaN]; exact hn1
  · rw [baseIndex, isNaN_of_isFinite h1, if_neg Bool.false_ne_true]
    exact (Nat.div_lt_iff_lt_mul unitsPerOne_pos).2 h3

theorem nextIndex_lt {n : Nat} (hn : legalSize n) (i : Nat) : nextIndex n i < n := Nat.mod_lt _ hn.1

/-- The sample of a state (R161), as the two entries' words. -/
def State.sample (s : State) : Word :=
  mix (fracOf s.phase (baseIndex s.phase)) (Memory.read s.cfg s.table (baseIndex s.phase))
    (Memory.read s.cfg s.table (nextIndex s.cfg.tableSize (baseIndex s.phase)))

theorem lerp_of_legal {s : State} (hn : legalSize s.cfg.tableSize)
    (h : legalPhase s.cfg.tableSize s.phase = true) : s.lerp = .ok s.sample := by
  rw [State.lerp, f32ToIdx_of_legal h]
  simp only [memRead_of_lt (baseIndex_lt hn h), memRead_of_lt (nextIndex_lt hn (baseIndex s.phase))]
  rfl

/-- GET on a legal phase answers the sample and advances (R166). -/
theorem execGet_of_legal {s : State} (hn : legalSize s.cfg.tableSize)
    (h : legalPhase s.cfg.tableSize s.phase = true) :
    execGet s =
      .next (State.respond { s with phase := advance s.cfg.tableSize s.phase s.phaseIncrement } .ok s.sample) := by
  rw [execGet, lerp_of_legal hn h]

/-- GET stops by name when the phase is not legal (R203). -/
theorem execGet_of_illegal {s : State} (h : legalPhase s.cfg.tableSize s.phase = false) :
    execGet s = .fault .illegalPhase := by
  have h1 : s.lerp = .error .illegalPhase := by
    rw [State.lerp, f32ToIdx, h, if_neg Bool.false_ne_true]
  rw [execGet, h1]

/-- Everything a GET that goes on can have done. -/
theorem execGet_next {s t : State} (h : execGet s = .next t) :
    ∃ sample, s.lerp = .ok sample ∧
      t = State.respond { s with phase := advance s.cfg.tableSize s.phase s.phaseIncrement } .ok sample := by
  unfold execGet at h
  split at h
  · cases h
  · rename_i sample hl
    cases h
    exact ⟨sample, hl, rfl⟩

/-- Everything one clock edge can do. -/
theorem runEdge_cases (e : PortEdge) (s : State) :
    (e.rst = true ∧ runEdge e s = .next s.applyReset) ∨
    (e.rst = false ∧ e.cmd = none ∧ runEdge e s = .next (s.takeResponse e.rspReady)) ∨
    (∃ w, e.rst = false ∧ e.cmd = some w ∧ runEdge e s = runCommand w (s.takeResponse e.rspReady)) := by
  obtain ⟨rst, cmd, rdy⟩ := e
  cases rst
  · cases cmd with
    | none => exact .inr (.inl ⟨rfl, rfl, rfl⟩)
    | some w => exact .inr (.inr ⟨w, rfl, rfl, rfl⟩)
  · exact .inl ⟨rfl, rfl⟩

/-- A legal block with an edge pending runs that edge. -/
theorem step_of_cons {s : State} {e : PortEdge} {rest : List PortEdge} (hl : s.cfg.legal = true)
    (hi : s.inputs = e :: rest) : step s = runEdge e { s with inputs := rest } := by
  rw [step, runPorts, if_pos hl, hi]

theorem step_of_nil {s : State} (hl : s.cfg.legal = true) (hi : s.inputs = []) : step s = .next s := by
  rw [step, runPorts, if_pos hl, hi]

/-- Everything a step that goes on can have done. -/
theorem step_next {s t : State} (h : step s = .next t) :
    s.cfg.legal = true ∧
      ((s.inputs = [] ∧ t = s) ∨ ∃ e rest, s.inputs = e :: rest ∧ runEdge e { s with inputs := rest } = .next t) := by
  by_cases hl : s.cfg.legal = true
  · refine ⟨hl, ?_⟩
    cases hi : s.inputs with
    | nil =>
      rw [step_of_nil hl hi] at h
      cases h
      exact .inl ⟨rfl, rfl⟩
    | cons e rest => exact .inr ⟨e, rest, rfl, by rw [← step_of_cons hl hi]; exact h⟩
  · rw [step, runPorts, if_neg hl] at h
    cases h

end Sys2Proof.Machine
end

