-- ==== Sys2Proof/Laws/PerInstr.lean ====
section
/-! SUPPORT. The statement families over all commands, one lemma per constructor (LAWS.json), and the fields of a command
word as numbers. -/

namespace Sys2Proof.Laws

theorem toNat_packFields (op : BitVec 3) (rsv : BitVec 13) (idx : Index) (data : Word) :
    (packFields op rsv idx data).toNat =
      ((op.toNat * 2 ^ 13 + rsv.toNat) * 2 ^ 16 + idx.toNat) * 2 ^ 32 + data.toNat := by
  unfold packFields
  simp only [BitVec.toNat_append]
  rw [← Nat.shiftLeft_add_eq_or_of_lt rsv.isLt, ← Nat.shiftLeft_add_eq_or_of_lt idx.isLt,
    ← Nat.shiftLeft_add_eq_or_of_lt data.isLt]
  simp only [Nat.shiftLeft_eq]

/-- The fields of a word are what was packed into it (R61). -/
theorem fields_packFields (op : BitVec 3) (rsv : BitVec 13) (idx : Index) (data : Word) :
    opField (packFields op rsv idx data) = op ∧ rsvField (packFields op rsv idx data) = rsv ∧
      idxField (packFields op rsv idx data) = idx ∧ dataField (packFields op rsv idx data) = data := by
  have h1 := op.isLt
  have h2 := rsv.isLt
  have h3 := idx.isLt
  have h4 := data.isLt
  refine ⟨?_, ?_, ?_, ?_⟩ <;> apply BitVec.eq_of_toNat_eq <;>
    simp only [opField, rsvField, idxField, dataField, BitVec.extractLsb'_toNat, toNat_packFields,
      Nat.shiftRight_eq_div_pow] <;>
    omega

/-- A word is its four fields (R61). -/
theorem packFields_fields (w : Command) : packFields (opField w) (rsvField w) (idxField w) (dataField w) = w := by
  have h := w.isLt
  apply BitVec.eq_of_toNat_eq
  simp only [toNat_packFields, opField, rsvField, idxField, dataField, BitVec.extractLsb'_toNat,
    Nat.shiftRight_eq_div_pow]
  omega

/-- A mask of the bits from `k` up keeps the word's bits from `k` up. -/
theorem toNat_and_highMask (w : Command) (k : Nat) :
    (w &&& (BitVec.allOnes 64 <<< k)).toNat = w.toNat / 2 ^ k * 2 ^ k := by
  have h : w &&& (BitVec.allOnes 64 <<< k) = (w >>> k) <<< k := by
    ext i hi
    simp only [BitVec.getElem_and, BitVec.getElem_shiftLeft, BitVec.getElem_ushiftRight, BitVec.getElem_allOnes]
    by_cases h : i < k
    · simp [h]
    · simp [h, show k + (i - k) = i by omega, BitVec.getLsbD_eq_getElem hi]
  rw [h, BitVec.toNat_shiftLeft, BitVec.toNat_ushiftRight, Nat.shiftLeft_eq, Nat.shiftRight_eq_div_pow,
    Nat.mod_eq_of_lt]
  exact lt_of_le_of_lt (Nat.div_mul_le_self _ _) w.isLt

theorem setfMask : 0xFFFF_FFFF_0000_0000#64 = BitVec.allOnes 64 <<< 32 := by decide

theorem wrtMask : 0xFFFF_0000_0000_0000#64 = BitVec.allOnes 64 <<< 48 := by decide

/-- The word of a command selects the command's row of the opcode map: `(w AND mask) == match` (R64). -/
def OpcodeRow.Statement (i : Instr) : Prop := encode i &&& rowMask i = rowMatch i

theorem OpcodeRow.get : OpcodeRow.Statement .get := by
  unfold OpcodeRow.Statement
  decide

theorem OpcodeRow.setf (hz : Word) : OpcodeRow.Statement (.setf hz) := by
  have h := hz.isLt
  apply BitVec.eq_of_toNat_eq
  rw [rowMask, setfMask, toNat_and_highMask, encode, toNat_packFields, rowMatch]
  simp
  omega

theorem OpcodeRow.wrt (idx : Index) (data : Word) : OpcodeRow.Statement (.wrt idx data) := by
  have h := data.isLt
  have h' := idx.isLt
  apply BitVec.eq_of_toNat_eq
  rw [rowMask, wrtMask, toNat_and_highMask, encode, toNat_packFields, rowMatch]
  simp
  omega

end Sys2Proof.Laws
end

