-- ==== Sys2Proof/Laws/Safety.lean ====
section
/-! SUPPORT. The small lemmas of the terms claims use. -/

namespace Sys2Proof.Machine

@[simp] theorem phaseAfter_zero (n : Nat) (inc : Word) : phaseAfter n inc 0 = posZero := rfl

@[simp] theorem phaseAfter_succ (n : Nat) (inc : Word) (m : Nat) :
    phaseAfter n inc (m + 1) = advance n (phaseAfter n inc m) inc :=
  Function.iterate_succ_apply' _ _ _

@[simp] theorem extendedValue_posInf : extendedValue posInf = ⊤ := by
  simp [extendedValue, show isInf posInf = true by decide, show signBit posInf = false by decide]

@[simp] theorem extendedValue_negInf : extendedValue negInf = ⊥ := by
  simp [extendedValue, show isInf negInf = true by decide, show signBit negInf = true by decide]

theorem extendedValue_of_isFinite {w : Word} (h : isFinite w = true) :
    extendedValue w = ((value w : Real) : EReal) := by
  simp [extendedValue, isInf_of_isFinite h]

@[simp] theorem remaining_ready (s : State) : remaining s true = s.responses.tail := rfl

@[simp] theorem remaining_not_ready (s : State) : remaining s false = s.responses := rfl

/-- The model's value where R93 defines none (log 11). -/
theorem exactEntry_of_empty {os : OvertoneSet} (h : overtoneCount os = 0) (n i : Nat) : exactEntry n os i = 0 := by
  simp [exactEntry, h]

/-- An edge's delivery leaves the responses `remaining` says, and everything else as it was. -/
theorem takeResponse_eq (s : State) (rspReady : Bool) :
    s.takeResponse rspReady = { s with responses := remaining s rspReady } := by
  cases rspReady <;> rfl

end Sys2Proof.Machine
end

