-- ==== Sys2Proof/Tests/Slice0.lean ====
section
/-! SUPPORT. The model's own tests, with expected values from the spec's examples (95_test_vectors, derived by the spec
from its rules), and one concrete state or operand meeting the hypotheses of each statement that has any. -/

namespace Sys2Proof.Tests

open Sys2Proof Sys2Proof.Machine

/-! ## Small blocks -/

/-- ramp8 of 95_test_vectors: entry `i` is `i`, from 0.0 to 7.0. -/
def ramp8 : List Word :=
  [0x00000000#32, 0x3F800000#32, 0x40000000#32, 0x40400000#32, 0x40800000#32, 0x40A00000#32, 0x40C00000#32,
    0x40E00000#32]

/-- A block of 8 entries at 8000 samples per second. -/
def cfg8 : Config := { tableSize := 8, sampleRate := 8000#32, tableInit := ramp8 }

/-- That block with these two registers. -/
def at8 (phase inc : Word) : State := { State.resetFor cfg8 with phase := phase, phaseIncrement := inc }

/-- That block with the table `[t0, t1, 2.0, …, 7.0]` after reset. -/
def entries8 (t0 t1 : Word) : State := State.resetFor { cfg8 with tableInit := t0 :: t1 :: ramp8.drop 2 }

/-- An edge that presents a word and takes no response. -/
def present (w : Command) : PortEdge := { rst := false, cmd := some w, rspReady := false }

/-- A state with these edges pending. -/
def withInputs (s : State) (es : List PortEdge) : State := { s with inputs := es }

/-- A reset edge at which a command is presented and a response could be taken. -/
def resetEdge : PortEdge := { rst := true, cmd := some 0x2000_0000_0000_0000#64, rspReady := true }

/-- What a test compares of a step: the two registers and the undelivered responses. -/
def seen : Host.Outcome State Fault Refusal → Option (Word × Word × List Response)
  | .next t => some (t.phase, t.phaseIncrement, t.responses)
  | .fault _ => none
  | .refused _ => none

/-- What a test compares of the table after a step: entries `i` and `j`. -/
def entriesSeen (i j : Nat) : Host.Outcome State Fault Refusal → Option (Word × Word)
  | .next t =>
    match t.memRead i, t.memRead j with
    | .ok v, .ok w => some (v, w)
    | _, _ => none
  | .fault _ => none
  | .refused _ => none

/-! ## Decoding: words written bit by bit from the pattern strings of 30_encoding R64 -/

theorem test_decode_get :
    decode 0b001_0000000000000_0000000000000000_00000000000000000000000000000000#64 = .ok .get := by decide

theorem test_decode_setf :
    decode 0b010_0000000000000_0000000000000000_01000011110111000000000000000000#64 = .ok (.setf 0x43DC0000#32) := by
  decide

theorem test_decode_wrt :
    decode 0b011_0000000000000_0000000000000010_00111111100000000000000000000000#64 =
      .ok (.wrt 2#16 0x3F800000#32) := by decide

theorem test_encode :
    encode .get = 0x2000_0000_0000_0000#64 ∧ encode (.setf 0x43DC0000#32) = 0x4000_0000_43DC_0000#64 ∧
      encode (.wrt 7#16 0xFFFFFFFF#32) = 0x6000_0007_FFFF_FFFF#64 := by decide

/-- The illegal words of V10. -/
theorem test_decode_refuses :
    decode 0x0000_0000_0000_0000#64 = .error .reservedOp ∧ decode 0x8000_0000_0000_0000#64 = .error .reservedOp ∧
      decode 0xE000_0000_0000_0000#64 = .error .reservedOp ∧ decode 0xFFFF_FFFF_FFFF_FFFF#64 = .error .reservedField ∧
      decode 0x2000_0000_0000_0001#64 = .error .getOperand ∧ decode 0x2000_0001_0000_0000#64 = .error .getOperand ∧
      decode 0x3000_0000_0000_0000#64 = .error .reservedField ∧ decode 0x4000_0001_43DC_0000#64 = .error .setfIndex ∧
      decode 0x6001_0008_3F80_0000#64 = .error .reservedField := by decide

/-- V11: the same WRT word in blocks of other sizes. -/
theorem test_index_range :
    decodeFor 8 0x6000_0008_3F80_0000#64 = .badIndex 8#16 ∧
      decodeFor 128 0x6000_0008_3F80_0000#64 = .wrt 8#16 0x3F800000#32 ∧
      decodeFor 65536 0x6000_FFFF_0000_0000#64 = .wrt 0xFFFF#16 0#32 ∧
      decodeFor 1 0x6000_0001_0000_0000#64 = .badIndex 1#16 := by decide

theorem test_table_word :
    decodeTableWord 64 0x2000_0000_0000_0000 = some .get ∧ decodeTableWord 64 0 = none := by decide

/-! ## Well-formedness -/

theorem test_wellFormed_refuses :
    Instr.wellFormed cfg8 (.wrt 8#16 0#32) = false ∧ Instr.wellFormed cfg8 (.wrt 7#16 0#32) = true := by decide

/-- R8: no entry, one entry too many for a 16-bit index, no rate, a missing initial word. -/
theorem test_config_refuses :
    Config.legal { cfg8 with tableSize := 0, tableInit := [] } = false ∧
      Config.legal { cfg8 with tableSize := 65537 } = false ∧ Config.legal { cfg8 with sampleRate := 0 } = false ∧
      Config.legal { cfg8 with tableInit := ramp8.drop 1 } = false ∧ Config.legal cfg8 = true := by
  decide +kernel

/-! ## One step of each command -/

/-- V25: across the seam. -/
theorem test_get_seam :
    seen (step (withInputs (at8 0x40F00000#32 0x3FC00000#32) [present 0x2000_0000_0000_0000#64])) =
      some (0x3F800000#32, 0x3FC00000#32, [⟨.ok, 0x40600000#32⟩]) := by
  decide +kernel

/-- V23 row 5: at an integer phase the bits of an entry that holds `−0` are not kept. -/
theorem test_get_negative_zero :
    seen (step (withInputs (entries8 0x80000000#32 0x3F800000#32) [present 0x2000_0000_0000_0000#64])) =
      some (0#32, 0#32, [⟨.ok, 0x00000000#32⟩]) := by decide

/-- V33 row 11: two roundings. -/
theorem test_setf :
    seen (step (withInputs (at8 0x40F00000#32 0#32) [present 0x4000_0000_42C8_0000#64])) =
      some (0x40F00000#32, 0x3DCCCCCD#32, [⟨.ok, 0#32⟩]) := by decide

/-- V10: SETF with `idx ≠ 0` is illegal and the increment keeps its value. -/
theorem test_setf_illegal :
    seen (step (withInputs (at8 0#32 0x3F800000#32) [present 0x4000_0001_43DC_0000#64])) =
      some (0#32, 0x3F800000#32, [⟨.illegalCmd, 0#32⟩]) := by decide

/-- V40: a signalling NaN is stored unchanged, and no other entry is written. -/
theorem test_wrt :
    entriesSeen 2 3 (step (withInputs (at8 0#32 0#32) [present 0x6000_0002_7F80_0001#64])) =
      some (0x7F800001#32, 0x40400000#32) := by decide

/-- V42: a refused write; the index does not wrap. -/
theorem test_wrt_refused :
    seen (step (withInputs (at8 0#32 0#32) [present 0x6000_0008_3F80_0000#64])) =
        some (0#32, 0#32, [⟨.badIndex, 8#32⟩]) ∧
      entriesSeen 0 7 (step (withInputs (at8 0#32 0#32) [present 0x6000_0008_3F80_0000#64])) =
        some (0x00000000#32, 0x40E00000#32) := by decide

/-- R224, R250: a reset wins over the command at its edge and drops the undelivered response. -/
theorem test_reset_edge :
    seen (step { at8 0x40F00000#32 0x3FC00000#32 with inputs := [resetEdge], responses := [⟨.ok, 1#32⟩] }) =
      some (0#32, 0#32, []) := by decide

/-! ## Functions of the data path -/

/-- Rows of V35: the three cases of `Advance`, `−0` never kept, and a sum that rounds up to `N`. -/
theorem test_advance :
    advance 8 0x40C00000#32 0x40400000#32 = 0x3F800000#32 ∧ advance 8 0x40FFFFFF#32 0x34800000#32 = 0x00000000#32 ∧
      advance 8 0x00000000#32 0xBE800000#32 = 0x40F80000#32 ∧ advance 8 0x40A00000#32 0xC1A80000#32 = 0x00000000#32 ∧
      advance 8 0x00000000#32 0x80000001#32 = 0x00000000#32 ∧ advance 8 0x00000000#32 0xFF800000#32 = cNaN := by
  decide

/-- Rows of V33: a NaN, an overflowing product, a subnormal quotient, and rates that are rounded. -/
theorem test_increment :
    increment 8 8000#32 0x7F800001#32 = 0x7FC00000#32 ∧ increment 8 8000#32 0x7F61B1E6#32 = 0x7F800000#32 ∧
      increment 8 8000#32 0x00800000#32 = 0x000020C5#32 ∧ increment 8 8000#32 0x80000000#32 = 0x80000000#32 ∧
      increment 128 4294967295#32 0x3F800000#32 = 0x33000000#32 := by decide

/-- V50. -/
theorem test_add :
    fadd32 0x3F800000#32 0x33800000#32 = 0x3F800000#32 ∧ fadd32 0x3F800000#32 0x33800001#32 = 0x3F800001#32 ∧
      fadd32 0x3F800001#32 0x33800000#32 = 0x3F800002#32 ∧ fadd32 0x7F7FFFFF#32 0x7F7FFFFF#32 = 0x7F800000#32 ∧
      fadd32 0x80000000#32 0x80000000#32 = 0x80000000#32 ∧ fsub32 0x3F800000#32 0x33800000#32 = 0x3F7FFFFF#32 := by
  decide

/-- V51. -/
theorem test_mul :
    fmul32 0x00000000#32 0x7F800000#32 = 0x7FC00000#32 ∧ fmul32 0x00000000#32 0xBF800000#32 = 0x80000000#32 ∧
      fmul32 0x3F000000#32 0x3F3504F3#32 = 0x3EB504F3#32 ∧ fmul32 0x00000001#32 0x3F000000#32 = 0x00000000#32 := by
  decide

/-- V52. -/
theorem test_div :
    fdiv32 0x475C0000#32 0x472C4400#32 = 0x3FA377EE#32 ∧ fdiv32 0x44480000#32 0x45FA0000#32 = 0x3DCCCCCD#32 ∧
      fdiv32 0x7F800000#32 0x45FA0000#32 = 0x7F800000#32 := by decide

/-- A line of 30_encoding R68's form, with a decimal operand. -/
theorem test_assemble :
    assembleLine 8 "SETF 440.0 ; concert pitch".toList = some [.setf 0x43DC0000#32] ∧
      assembleLine 8 "WRT 2, 1.0".toList = some [.wrt 2#16 0x3F800000#32] ∧
      assembleLine 8 "GET x 3".toList = some [.get, .get, .get] ∧ assembleLine 8 "NOP".toList = none := by
  decide +kernel

/-! ## Witnesses: concrete inputs that meet the hypotheses of each statement, one per clause, at the ends of ranges -/

/-- The word of GET, presented. -/
def getEdge : PortEdge := present 0x2000_0000_0000_0000#64

/-- A block of 1 entry, at the largest rate. -/
def cfg1 : Config := { tableSize := 1, sampleRate := 4294967295#32, tableInit := [0x3DCCCCCD#32] }

theorem witness_O2 : decode 0x6000_FFFF_FFFF_FFFF#64 = .ok (.wrt 0xFFFF#16 0xFFFFFFFF#32) := by decide

theorem witness_O3 :
    0#64 &&& 0xFFFF_FFFF_FFFF_FFFF#64 ≠ 0x2000_0000_0000_0000#64 ∧
      0#64 &&& 0xFFFF_FFFF_0000_0000#64 ≠ 0x4000_0000_0000_0000#64 ∧
      0#64 &&& 0xFFFF_0000_0000_0000#64 ≠ 0x6000_0000_0000_0000#64 := by decide

/-- One word for each test of the algorithm, at the ends of the index range of 8 entries. -/
theorem witness_O4 :
    BitVec.extractLsb' 48 13 0x2001_0000_0000_0000#64 ≠ 0 ∧
      BitVec.extractLsb' 32 16 0x2000_0001_0000_0000#64 ≠ 0 ∧ BitVec.extractLsb' 0 32 0x2000_0000_0000_0001#64 ≠ 0 ∧
      BitVec.extractLsb' 61 3 0x2000_0000_0000_0000#64 = 0b001#3 ∧
      BitVec.extractLsb' 61 3 0x4000_0001_0000_0000#64 = 0b010#3 ∧
      8 ≤ (BitVec.extractLsb' 32 16 0x6000_0008_0000_0000#64).toNat ∧
      (BitVec.extractLsb' 32 16 0x6000_0007_0000_0000#64).toNat < 8 ∧
      BitVec.extractLsb' 61 3 0x8000_0000_0000_0000#64 = 0b100#3 := by decide

theorem witness_O7 :
    (at8 0 0).cfg.legal = true ∧ decode 0x6000_0007_0000_0001#64 = .ok (.wrt 7#16 1#32) ∧
      decodeTableWord 64 0x4000_0000_43DC_0000 = some (.setf 0x43DC0000#32) := by decide

/-- An illegal word for each of two reasons, and a WRT word. -/
theorem witness_O8 :
    (at8 0 0).cfg.legal = true ∧ (∃ e, decode 0#64 = .error e) ∧ rsvField 0x6000_FFFF_0000_0000#64 = 0 ∧
      opField 0x6000_FFFF_0000_0000#64 = 0b011#3 ∧
      (rsvField 0x7FFF_0000_0000_0000#64 ≠ 0 ∧ listedIllegal 0x7FFF_0000_0000_0000#64) := by
  refine ⟨by decide, ⟨.reservedOp, by decide⟩, by decide, by decide, by decide, .inr (.inl (by decide))⟩

theorem witness_O9 :
    (withInputs (at8 0x40F00000#32 0x3FC00000#32) [getEdge]).inv = true ∧
      (withInputs (at8 0x40F00000#32 0x3FC00000#32) [getEdge]).inputs =
        [{ rst := false, cmd := some 0x2000_0000_0000_0000#64, rspReady := false }] := by decide

theorem witness_O10 :
    (withInputs (at8 0x40F00000#32 0) [resetEdge, getEdge]).cfg.legal = true ∧ resetEdge.rst = true ∧
      cfg8.tableInit[7]? = some 0x40E00000#32 := by decide

/-- No edge; an edge that takes the oldest of two responses; one that finds none; one that takes none. -/
theorem witness_O11 :
    (at8 0 0).cfg.legal = true ∧ (at8 0 0).inputs = [] ∧ (at8 0 0).responses = [] ∧
      { withInputs (at8 0 0) [⟨false, none, true⟩, ⟨false, none, false⟩] with
        responses := [⟨.ok, 1#32⟩, ⟨.ok, 2#32⟩] }.inputs = ⟨false, none, true⟩ :: [⟨false, none, false⟩] := by decide

theorem witness_O12 : (State.resetFor { cfg8 with sampleRate := 0 }).cfg.legal = false := by decide

theorem witness_O13 : cfg8.legal = true ∧ cfg1.legal = true ∧ Config.standard.legal = true := by decide +kernel

/-- Also for the statement that a legal block never stops. -/
theorem witness_O14 :
    (withInputs (at8 0x40FFFFFF#32 0x7F800000#32) [getEdge]).inv = true ∧ (at8 cNaN cNaN).inv = true ∧
      ∃ t, step (withInputs (at8 0x40FFFFFF#32 0x7F800000#32) [getEdge]) = .next t := by
  refine ⟨by decide, by decide, _, rfl⟩

theorem witness_O16 :
    (at8 0 0).sampleRate = (at8 0 0).cfg.sampleRate ∧ step (at8 0 0) = .next (at8 0 0) :=
  ⟨by decide, rfl⟩

/-- A GET whose phase changes, and a reset edge. -/
theorem witness_O17 :
    (∃ t, step (withInputs (at8 0x40F00000#32 0x3FC00000#32) [getEdge]) = .next t ∧ t.phase = 0x3F800000#32) ∧
      ∃ t, step (withInputs (at8 0x40F00000#32 0x3FC00000#32) [resetEdge]) = .next t ∧ t.phase = 0#32 :=
  ⟨⟨_, rfl, by decide⟩, ⟨_, rfl, by decide⟩⟩

/-- A SETF whose increment changes, and a reset edge. -/
theorem witness_O18 :
    (∃ t, step (withInputs (at8 0 0) [present 0x4000_0000_447A_0000#64]) = .next t ∧
        t.phaseIncrement = 0x3F800000#32) ∧
      ∃ t, step (withInputs (at8 0 0x3F800000#32) [resetEdge]) = .next t ∧ t.phaseIncrement = 0#32 :=
  ⟨⟨_, rfl, by decide⟩, ⟨_, rfl, by decide⟩⟩

/-- A WRT that changes the last entry, and a reset edge. -/
theorem witness_O19 :
    (withInputs (at8 0 0) [present 0x6000_0007_3F80_0000#64]).inv = true ∧
      (∃ t, step (withInputs (at8 0 0) [present 0x6000_0007_3F80_0000#64]) = .next t ∧
        t.memRead 7 = .ok 0x3F800000#32) ∧
      ∃ t, step (withInputs { at8 0 0 with table := [(7, 1#32)] } [resetEdge]) = .next t ∧
        t.memRead 7 = .ok 0x40E00000#32 :=
  ⟨by decide, ⟨_, rfl, by decide⟩, ⟨_, rfl, by decide⟩⟩

/-- The words at both ends of the index range of 8 entries, and a table of the largest size. -/
theorem witness_O20 :
    (at8 0 0).cfg.legal = true ∧ rsvField 0x6000_0008_3F80_0000#64 = 0 ∧
      opField 0x6000_0008_3F80_0000#64 = 0b011#3 ∧ 8 ≤ (idxField 0x6000_0008_3F80_0000#64).toNat ∧
      errorOf 8 0x6000_0008_3F80_0000#64 = some (.badIndex 8#16) ∧ (7#16).toNat < (at8 0 0).cfg.tableSize ∧
      (State.resetFor { cfg8 with tableSize := 65536 }).cfg.tableSize = 65536 ∧
      (∃ t, exec .get (at8 0 0) = .next t) ∧ ∃ t, exec (.setf 0) (at8 0 0) = .next t :=
  ⟨by decide, by decide, by decide, by decide, by decide, by decide, rfl, ⟨_, rfl⟩, ⟨_, rfl⟩⟩

theorem witness_O21 :
    errorOf 8 0#64 = some .illegalCmd ∧ errorOf 8 0x6000_0008_3F80_0000#64 = some (.badIndex 8#16) ∧
      (withInputs (at8 0 0) ([0#64, 0x6000_0008_3F80_0000#64].map commandEdge ++ [getEdge])).cfg.legal = true := by
  decide

theorem witness_O22 :
    Memory.wf cfg8 [(7, 1#32)] = true ∧ (7#16).toNat < cfg8.tableSize ∧ cfg8.tableSize ≤ (8#16).toNat ∧
      { at8 0 0 with table := [(7, 1#32)] }.memRead 7 = .ok 1#32 ∧
      opField 0x6001_0008_3F80_0000#64 = 0b011#3 ∧ rsvField 0x6001_0008_3F80_0000#64 ≠ 0 := by decide

theorem witness_O23 :
    cfg8.legal = true ∧ Memory.wf cfg8 [(0, 1#32), (7, 1#32)] = true ∧ 7 < cfg8.tableSize ∧
      cfg8.tableInit[7]? = some 0x40E00000#32 := by decide

theorem witness_O24 :
    Memory.wf cfg8 [(7, 1#32)] = true ∧
      { at8 0 0 with table := [(7, 1#32)] }.memWrite 7 0x40E00000#32 = .ok (at8 0 0) := by decide

theorem witness_O25 :
    Memory.wf cfg8 [(0, 1#32), (7, 1#32)] = true ∧
      ∀ i, i < cfg8.tableSize → Memory.read cfg8 [(7, 1#32)] i = Memory.read cfg8 [(7, 1#32)] i :=
  ⟨by decide, fun _ _ => rfl⟩

theorem witness_O26 :
    (at8 0x40F00000#32 0).cfg.legal = true ∧ Memory.wf (at8 0 0).cfg (at8 0 0).table = true ∧
      ramp8.length = (at8 0 0).cfg.tableSize ∧
      (withInputs (at8 0 0) (commandEdges (ldtab ramp8) ++ [getEdge])).inputs =
        commandEdges (ldtab ramp8) ++ [getEdge] := by decide

theorem witness_O27 :
    opField 0x4000_0001_43DC_0000#64 = 0b010#3 ∧ idxField 0x4000_0001_43DC_0000#64 ≠ 0 ∧
      opField 0x4800_0000_43DC_0000#64 = 0b010#3 ∧ rsvField 0x4800_0000_43DC_0000#64 ≠ 0 := by decide

/-- Both ends of the size and rate ranges, a NaN of each kind, and a product at the overflow threshold. -/
theorem witness_O28 :
    (1 ≤ 65536 ∧ (4294967295#32 : BitVec 32) ≠ 0) ∧ isNaN 0x7F800001#32 = true ∧ isNaN 0xFFFFFFFF#32 = true ∧
      isFinite 0x7F7FFFFF#32 = true ∧ overflowThreshold ≤ |value 0x7F7FFFFF#32 * (8 : Nat)| ∧
      isNaN 0x80000001#32 = false := by decide +kernel

theorem witness_O29 :
    isFinite 0x435C0000#32 = true ∧ isFinite 0x43DC0000#32 = true ∧
      value 0x43DC0000#32 = 2 * value 0x435C0000#32 ∧ 2 ≤ expField (fmul32 0x435C0000#32 (Nf 128)) ∧
      2 ≤ expField (increment 128 44100#32 0x435C0000#32) ∧ isFinite (fmul32 0x43DC0000#32 (Nf 128)) = true ∧
      isFinite (increment 128 44100#32 0x43DC0000#32) = true := by decide +kernel

theorem witness_O30 : (at8 0x40FFFFFF#32 0).cfg.legal = true ∧ legalPhase 8 0x40FFFFFF#32 = true := by decide

theorem witness_O31 :
    (at8 cNaN 0).cfg.legal = true ∧ legalPhase 8 cNaN = true ∧ legalPhase 8 0#32 = true ∧
      legalPhase 1 0x3F7FFFFF#32 = true ∧ opField 0x2000_0000_0000_0001#64 = 0b001#3 ∧
      dataField 0x2000_0000_0000_0001#64 ≠ 0 ∧ opField 0x3000_0000_0000_0000#64 = 0b001#3 ∧
      rsvField 0x3000_0000_0000_0000#64 ≠ 0 := by decide

/-- `N` itself and `−0` are no legal phases. -/
theorem witness_O32 : legalPhase 8 0x41000000#32 = false ∧ legalPhase 8 0x80000000#32 = false := by decide

/-- Also for the statement that `Advance` returns a legal phase. -/
theorem witness_O33 :
    legalPhase 65536 0x477FFFFF#32 = true ∧ isFinite 0x477FFFFF#32 = true ∧ legalPhase 1 0x3F7FFFFF#32 = true ∧
      legalPhase 1 cNaN = true := by decide

/-- A phase at an integer, one below 1 whose fraction is `2^−25`, one just below `N`, and `cNaN`. -/
theorem witness_O34 :
    f32ToIdx 8 cNaN = .ok 0 ∧ f32ToIdx 8 0x40E00000#32 = .ok 7 ∧ value 0x40E00000#32 = (7 : Nat) ∧
      f32ToIdx 8 0x33000000#32 = .ok 0 ∧ value 0x33000000#32 = 1 / 2 ^ 25 ∧ f32ToIdx 8 0x40FFFFFF#32 = .ok 7 ∧
      isFinite 0x40FFFFFF#32 = true := by decide +kernel

/-- The columns of V23, and the last entry. -/
theorem witness_O35 :
    isFinite 0x3F800000#32 = true ∧ isInf 0xFF800000#32 = true ∧ isZero 0x80000000#32 = true ∧
      isFinite 0x7F800000#32 = false ∧ isNaN 0x7F800001#32 = true ∧ (at8 0x40E00000#32 0).cfg.legal = true ∧
      f32ToIdx 8 0x40E00000#32 = .ok 7 ∧ value 0x40E00000#32 = (7 : Nat) ∧
      (at8 0x40E00000#32 0).memRead 7 = .ok 0x40E00000#32 ∧
      (at8 0x40E00000#32 0).memRead (nextIndex 8 7) = .ok 0#32 := by decide +kernel

/-- A `cNaN` phase, a NaN entry, an infinite entry, and finite ones. -/
theorem witness_O36 :
    (f32ToIdx 8 cNaN = .ok 0 ∧ (at8 cNaN 0).lerp = .ok cNaN) ∧
      (entries8 0x7F800001#32 0).lerp = .ok cNaN ∧ (entries8 0x7F800000#32 0).lerp = .ok 0x7F800000#32 ∧
      ((at8 0x40FFFFFF#32 0).cfg.legal = true ∧ f32ToIdx 8 0x40FFFFFF#32 = .ok 7 ∧
        (at8 0x40FFFFFF#32 0).memRead 7 = .ok 0x40E00000#32 ∧
        (at8 0x40FFFFFF#32 0).memRead (nextIndex 8 7) = .ok 0#32 ∧
        ∃ v, (at8 0x40FFFFFF#32 0).lerp = .ok v) := by
  refine ⟨by decide, by decide, by decide, by decide, by decide, by decide, by decide, _, rfl⟩

theorem witness_O37 :
    (at8 posZero posZero).cfg.legal = true ∧ (at8 posZero posZero).phase = posZero ∧
      (at8 posZero posZero).phaseIncrement = posZero := by decide

theorem witness_O38 : ∃ t, exec .get (at8 0x40F00000#32 0x3FC00000#32) = .next t := ⟨_, rfl⟩

/-- Sums of every case: infinite, not negative, a negative multiple of `N`, another negative one, and one whose result
rounds up to `N`. -/
theorem witness_O40 :
    isFinite (fadd32 0 posInf) = false ∧
      (isFinite (fadd32 0x40C00000#32 0x40400000#32) = true ∧ 0 ≤ value (fadd32 0x40C00000#32 0x40400000#32)) ∧
      (value (fadd32 0 0xC1000000#32) < 0 ∧
        value (fadd32 0 0xC1000000#32) - (8 : Nat) * ⌊value (fadd32 0 0xC1000000#32) / (8 : Nat)⌋ = 0) ∧
      (value (fadd32 0 0xBE800000#32) < 0 ∧
        value (fadd32 0 0xBE800000#32) - (8 : Nat) * ⌊value (fadd32 0 0xBE800000#32) / (8 : Nat)⌋ ≠ 0) ∧
      (value (fadd32 0 0x80000001#32) < 0 ∧
        value (fadd32 0 0x80000001#32) - (8 : Nat) * ⌊value (fadd32 0 0x80000001#32) / (8 : Nat)⌋ ≠ 0) := by
  decide +kernel

theorem witness_O41 :
    legalPhase 8 0x40FFFFFF#32 = true ∧ (0x40FFFFFF#32 : Word) ≠ cNaN ∧ isFinite 0x7F7FFFFF#32 = true ∧
      signBit 0x7F7FFFFF#32 = false ∧ isFinite negZero = true := by decide

theorem witness_O42 :
    (at8 cNaN 0x3F800000#32).cfg.legal = true ∧ (at8 cNaN 0x3F800000#32).phase = cNaN ∧
      (∃ t, exec (.setf 0) (at8 cNaN 0) = .next t) ∧ legalPhase 8 0x40FFFFFF#32 = true ∧
      (0x40FFFFFF#32 : Word) ≠ cNaN :=
  ⟨by decide, by decide, ⟨_, rfl⟩, by decide, by decide⟩

/-- V35's absorbed increment at the phase 4.0, with `e = 2`; its negation there, below a quarter of the spacing; and a
larger negative one at 6.0. -/
theorem witness_O43 :
    legalPhase 8 0x40800000#32 = true ∧ (0x40800000#32 : Word) ≠ cNaN ∧ (-126 : Int) ≤ 2 ∧
      (2 : Rat) ^ (2 : Int) ≤ value 0x40800000#32 ∧ value 0x40800000#32 < (2 : Rat) ^ ((2 : Int) + 1) ∧
      isFinite 0x2EDBE6FF#32 = true ∧ 0 ≤ value 0x2EDBE6FF#32 ∧
      |value 0x2EDBE6FF#32| < (2 : Rat) ^ ((2 : Int) - 23) / 2 ∧
      (isFinite 0xAEDBE6FF#32 = true ∧ |value 0xAEDBE6FF#32| < (2 : Rat) ^ ((2 : Int) - 23) / 4) ∧
      (legalPhase 8 0x40C00000#32 = true ∧ (2 : Rat) ^ (2 : Int) < value 0x40C00000#32 ∧
        value 0x40C00000#32 < (2 : Rat) ^ ((2 : Int) + 1) ∧ isFinite 0xB47FFFFF#32 = true ∧
        |value 0xB47FFFFF#32| < (2 : Rat) ^ ((2 : Int) - 23) / 2) := by decide +kernel

/-- Two exact additions of 3.5 in 8 entries; the largest whole number; and 0.25 in the largest table. -/
theorem witness_O44 :
    (isFinite 0x40600000#32 = true ∧ 0 ≤ value 0x40600000#32 ∧
      ∀ i, i < 2 → value (fadd32 (phaseAfter 8 0x40600000#32 i) 0x40600000#32) =
        value (phaseAfter 8 0x40600000#32 i) + value 0x40600000#32) ∧
      65536 ≤ 65536 ∧
      (isFinite 0x3E800000#32 = true ∧ value 0x3E800000#32 = ((1 : Nat) : Rat) / 2 ^ 2 ∧
        65536 * 2 ^ 2 + 1 ≤ 2 ^ 24) := by decide +kernel

theorem witness_O45 : 0 < 1 ∧ 0 < unitsPerOne ∧ isNaN 0x7F800000#32 = false ∧ isNaN 0x80000001#32 = false := by
  decide

/-- A pair of operands for each clause of the four operations. -/
theorem witness_O46 :
    isNaN 0x7F800001#32 = true ∧ isInf posInf = true ∧ isInf negInf = true ∧ isFinite 0x7F7FFFFF#32 = true ∧
      value 0x7F7FFFFF#32 + value 0x7F7FFFFF#32 ≠ 0 ∧ value one32 + value 0xBF800000#32 = 0 ∧
      value negZero + value negZero = 0 ∧ isZero one32 = false := by decide +kernel

theorem witness_O47 :
    isNaN 0x7F800001#32 = true ∧ isZero negZero = true ∧ isInf posInf = true ∧ isZero one32 = false ∧
      isNaN one32 = false ∧ isFinite 0x00000001#32 = true ∧ isZero 0x00000001#32 = false := by decide

theorem witness_O48 :
    isZero negZero = true ∧ isInf negInf = true ∧ isFinite 0x00000001#32 = true ∧ isZero 0x00000001#32 = false ∧
      isFinite 0x7F7FFFFF#32 = true ∧ (4294967295#32 : BitVec 32) ≠ 0 := by decide

theorem witness_O49 : isNaN (fadd32 posInf negInf) = true ∧ isNaN (fmul32 posZero posInf) = true := by decide

theorem witness_O50 :
    isFinite 0xC1A80000#32 = true ∧ isFinite (Nf 8) = true ∧ 1 ≤ value (Nf 8) ∧ 1 ≤ value one32 ∧
      0 ≤ value 0x41100000#32 ∧ |value 0xBE800000#32| < value (Nf 8) ∧
      value (fremExact 0xC1A80000#32 (Nf 8)) ≠ 0 ∧ value (fremExact 0xC1800000#32 (Nf 8)) = 0 := by decide +kernel

theorem witness_O51 :
    isNaN cNaN = true ∧ isFinite negZero = true ∧ isFinite 0x7F7FFFFF#32 = true ∧ isNaN posInf = false ∧
      isNaN negInf = false := by decide

theorem witness_O52 :
    (16777217#32 : BitVec 32) ≠ 0 ∧ (8388609 < 2 ^ 24 ∧ (16777218#32 : BitVec 32).toNat = 8388609 * 2 ^ 1) ∧
      (16777216#32 : BitVec 32).toNat ≤ 2 ^ 24 := by decide

theorem witness_O53 :
    65536 ≤ 65536 ∧ isFinite 0x477FFFFF#32 = true ∧ signBit 0x477FFFFF#32 = false ∧
      value 0x477FFFFF#32 < (65536 : Nat) ∧ negZero ≠ cNaN ∧ signBit negZero = true ∧
      ¬(value (Nf 65536) < (65536 : Nat)) := by decide +kernel

/-- The empty set, and a table of NaNs of two kinds. -/
theorem witness_O54 :
    overtoneCount ⟨Vector.replicate 10 none⟩ = 0 ∧
      ∀ i, i < 1 → ∃ v, (State.resetFor { cfg1 with tableInit := [0xFFC12345#32] }).memRead i = .ok v ∧
        isNaN v = true := by
  refine ⟨by decide, fun i hi => ⟨0xFFC12345#32, ?_, by decide⟩⟩
  obtain rfl : i = 0 := by omega
  decide

/-- One full slot, as in V1, V4 and the statement on averages. -/
theorem witness_O55_O56 :
    (overtoneSetOf [⟨one32, one32⟩]).map presentOvertones = some [⟨one32, one32⟩] ∧
      (overtoneSetOf [⟨posZero, one32⟩]).map presentOvertones = some [⟨posZero, one32⟩] ∧
      (overtoneSetOf [⟨negate one32, one32⟩]).map presentOvertones = some [⟨negate one32, one32⟩] ∧
      (overtoneSetOf [⟨one32, one32⟩]).map overtoneCount = some 1 := by decide

theorem witness_O55 : |(value one32 : Real)| ≤ 1 := by
  have h : value one32 = 1 := by decide +kernel
  rw [h]
  norm_num

/-- With no tolerance, in a block of one entry, whose only entry is `sin 0`. -/
theorem witness_O56_approximate (os : OvertoneSet) (h : presentOvertones os = [⟨one32, one32⟩]) :
    ApproximatesBuild 0 1 os [posZero] := by
  refine ⟨rfl, fun i v hv => ?_⟩
  obtain rfl : i = 0 := by
    by_contra hi
    rw [List.getElem?_eq_none (Nat.one_le_iff_ne_zero.2 hi)] at hv
    cases hv
  obtain rfl : posZero = v := by simpa using hv
  have h0 : value posZero = 0 := by decide +kernel
  rw [if_neg (by simp [overtoneCount, h])]
  refine ⟨by decide, ?_⟩
  simp [exactEntry, h, h0]

theorem witness_O57 : literalPattern (.dec false 4400 (-1)) = 0x43DC0000#32 ∧ 0 < 4400 := by decide +kernel

/-- Two sets with one present overtone, in the first slot and in the last. -/
theorem witness_O59 :
    presentOvertones ⟨(Vector.replicate 10 none).set 0 (some ⟨one32, one32⟩)⟩ =
        presentOvertones ⟨(Vector.replicate 10 none).set 9 (some ⟨one32, one32⟩)⟩ ∧
      (List.replicate 10 (⟨one32, one32⟩ : Overtone)).length ≤ 10 ∧
      10 < (List.replicate 11 (⟨one32, one32⟩ : Overtone)).length := by decide

theorem witness_O58 :
    ∃ ts, stepBlock 1 [at8 0 0, withInputs (at8 0 0x3F800000#32) [getEdge]] = .next ts := ⟨_, rfl⟩

end Sys2Proof.Tests
end

section
/-! PROOFS of 00_scope: which configurations are legal, and what a step answers in any other. -/

namespace Sys2Proof.Machine

/-- Beside `step_of_cons` and `step_of_nil`: the step outside a legal configuration (R24, log 7). -/
theorem step_of_illegal {s : State} (hl : s.cfg.legal = false) : step s = .refused .illegalConfig := by
  rw [step, runPorts, hl, if_neg Bool.false_ne_true]

/-- Settles O12: legality is R8's bounds, and the step tests it before it looks at the ports. -/
theorem illegalConfigurationRefused : Obligations.IllegalConfigurationRefused :=
  fun s => ⟨Config.legal_iff s.cfg, step_of_illegal⟩

end Sys2Proof.Machine
end

section
/-! PROOFS. What a command word and a step can have done, said once: later proofs take a step apart by these cases. -/

namespace Sys2Proof.Machine

/-- A word that decodes is the word of its command: the tests of R67 leave no other bit set (R64). -/
theorem encode_of_decode {w : Command} {i : Instr} (h : decode w = .ok i) : encode i = w := by
  have hw := Laws.packFields_fields w
  unfold decode at h
  split_ifs at h with hrsv hget hops hsetf hidx hwrt <;> cases h
  · obtain ⟨hidx, hdata⟩ := not_or.1 hops
    rw [hget, not_not.1 hrsv, not_not.1 hidx, not_not.1 hdata] at hw
    exact hw
  · rw [hsetf, not_not.1 hrsv, not_not.1 hidx] at hw
    exact hw
  · rw [hwrt, not_not.1 hrsv] at hw
    exact hw

/-- The states in which a block can be after it has accepted a word: one case per answer of R67. -/
inductive CommandEffect (s : State) : Command → State → Prop
  | illegal {w : Command} {e : DecodeError} (undecoded : decode w = .error e) :
      CommandEffect s w (s.raise .illegalCmd)
  | get {sample : Word} (interpolated : s.lerp = .ok sample) :
      CommandEffect s (encode .get)
        (State.respond { s with phase := advance s.cfg.tableSize s.phase s.phaseIncrement } .ok sample)
  | setf (hz : Word) :
      CommandEffect s (encode (.setf hz))
        (State.respond { s with phaseIncrement := increment s.cfg.tableSize s.sampleRate hz } .ok 0)
  | badIndex (idx : Index) (data : Word) (outside : s.cfg.tableSize ≤ idx.toNat) :
      CommandEffect s (encode (.wrt idx data)) (s.raise (.badIndex idx))
  | wrt (idx : Index) (data : Word) (inside : idx.toNat < s.cfg.tableSize) :
      CommandEffect s (encode (.wrt idx data))
        (State.respond { s with table := Memory.write s.cfg idx.toNat data s.table } .ok 0)

theorem commandEffect_of_runCommand {w : Command} {s t : State} (h : runCommand w s = .next t) :
    CommandEffect s w t := by
  unfold runCommand at h
  split at h
  next i hd =>
    obtain rfl := encode_of_decode hd
    cases i with
    | get =>
      obtain ⟨sample, hl, rfl⟩ := execGet_next h
      exact .get hl
    | setf hz =>
      cases h
      exact .setf hz
    | wrt idx data =>
      rw [exec, execWrt_eq] at h
      split at h <;> cases h
      next hi => exact .badIndex idx data hi
      next hi => exact .wrt idx data (not_le.1 hi)
  next e hd =>
    cases h
    exact .illegal hd

/-- The states in which a block can be after one step: nothing pending, a reset edge, an edge without a command, or an
accepted word. -/
inductive StepEffect (s : State) : State → Prop
  | idle (nothing : s.inputs = []) : StepEffect s s
  | reset {e : PortEdge} {rest : List PortEdge} (pending : s.inputs = e :: rest) (rst : e.rst = true) :
      StepEffect s (State.applyReset { s with inputs := rest })
  | deliver {e : PortEdge} {rest : List PortEdge} (pending : s.inputs = e :: rest) (noReset : e.rst = false)
      (noCommand : e.cmd = none) : StepEffect s (State.takeResponse { s with inputs := rest } e.rspReady)
  | command {e : PortEdge} {rest : List PortEdge} {w : Command} {t : State} (pending : s.inputs = e :: rest)
      (noReset : e.rst = false) (presented : e.cmd = some w)
      (effect : CommandEffect (State.takeResponse { s with inputs := rest } e.rspReady) w t) : StepEffect s t

/-- Only a legal block steps, and its step has one of the effects. -/
theorem stepEffect_of_step {s t : State} (h : step s = .next t) : s.cfg.legal = true ∧ StepEffect s t := by
  obtain ⟨hl, ⟨hi, rfl⟩ | ⟨e, rest, hi, he⟩⟩ := step_next h
  · exact ⟨hl, .idle hi⟩
  refine ⟨hl, ?_⟩
  obtain ⟨hr, hs⟩ | ⟨hr, hc, hs⟩ | ⟨w, hr, hc, hs⟩ := runEdge_cases e { s with inputs := rest }
  all_goals rw [hs] at he
  · cases he
    exact .reset hi hr
  · cases he
    exact .deliver hi hr hc
  · exact .command hi hr hc (commandEffect_of_runCommand he)

/-- No command reads or changes a parameter (R9). -/
theorem CommandEffect.cfg_eq {s t : State} {w : Command} (h : CommandEffect s w t) : t.cfg = s.cfg := by
  cases h <;> rfl

/-- No command changes the rate (R32). -/
theorem CommandEffect.sampleRate_eq {s t : State} {w : Command} (h : CommandEffect s w t) :
    t.sampleRate = s.sampleRate := by
  cases h <;> rfl

/-- A step keeps the parameters and leaves the rate as it is or at the strap value. -/
theorem StepEffect.cfg_and_sampleRate {s t : State} (h : StepEffect s t) :
    t.cfg = s.cfg ∧ (t.sampleRate = s.sampleRate ∨ t.sampleRate = s.cfg.sampleRate) := by
  cases h with
  | idle _ => exact ⟨rfl, .inl rfl⟩
  | reset _ _ => exact ⟨rfl, .inr rfl⟩
  | deliver _ _ _ => exact ⟨by simp, .inl (by simp)⟩
  | command _ _ _ hw => exact ⟨by simp [hw.cfg_eq], .inl (by simp [hw.sampleRate_eq])⟩

end Sys2Proof.Machine
end

section
/-! PROOFS of 10_state: the invariant of a legal block, the reset state, and who writes each part of the state. -/

namespace Sys2Proof.Machine

/-! What a table access sees of the state -/

theorem memRead_congr {s t : State} (hc : t.cfg = s.cfg) (ht : t.table = s.table) (j : Nat) :
    t.memRead j = s.memRead j := by
  simp only [State.memRead, hc, ht]

/-- With no difference listed, every entry reads as `TABLE_INIT` (R31). -/
theorem memRead_of_table_nil {s : State} {j : Nat} {v : Word} (hl : s.cfg.legal = true) (ht : s.table = [])
    (hv : s.cfg.tableInit[j]? = some v) : s.memRead j = .ok v := by
  obtain ⟨_, _, _, hlen⟩ := (Config.legal_iff s.cfg).1 hl
  have hj : j < s.cfg.tableSize := hlen ▸ (List.getElem?_eq_some_iff.1 hv).1
  rw [memRead_of_lt hj, ht, Memory.read, Memory.unlisted, List.getD_eq_getElem?_getD, hv, Option.getD_some]

/-- After a write, the entry holds the word and every other entry what it held (R43). -/
theorem memRead_of_table_write {s t : State} {i : Nat} {v : Word} (hc : t.cfg = s.cfg)
    (ht : t.table = Memory.write s.cfg i v s.table) (hw : Memory.wf s.cfg s.table = true) (hi : i < s.cfg.tableSize) :
    t.memRead i = .ok v ∧ ∀ j, j ≠ i → t.memRead j = s.memRead j := by
  constructor
  · rw [memRead_of_lt (hc ▸ hi), hc, ht, Memory.read_write_same s.cfg hw]
  · intro j hj
    simp only [State.memRead, hc, ht, Memory.read_write_other s.cfg v s.table hj]

/-! No NaN but `cNaN` (R196) -/

theorem canonicalNaN_of_not_isNaN {w : Word} (h : isNaN w = false) : canonicalNaN w = true := by
  rw [canonicalNaN, h, Bool.not_false, Bool.true_or]

theorem canonicalNaN_cNaN : canonicalNaN cNaN = true := by decide

theorem isNaN_withSign_zero (neg : Bool) : isNaN (withSign neg 0) = false := by cases neg <;> decide

theorem isNaN_withSign_inf (neg : Bool) : isNaN (withSign neg 0x7F800000) = false := by cases neg <;> decide

theorem isNaN_posZero : isNaN posZero = false := by decide

theorem isNaN_negZero : isNaN negZero = false := by decide

theorem canonicalNaN_fadd32 (a b : Word) : canonicalNaN (fadd32 a b) = true := by
  by_cases hn : isNaN a = true ∨ isNaN b = true
  · rw [fadd32_nan hn]
    exact canonicalNaN_cNaN
  · rw [not_or, Bool.not_eq_true, Bool.not_eq_true] at hn
    obtain ⟨ha, hb⟩ := hn
    rw [fadd32, if_neg (by simp [ha, hb])]
    dsimp only
    split_ifs
    · exact canonicalNaN_of_not_isNaN ha
    · exact canonicalNaN_cNaN
    · exact canonicalNaN_of_not_isNaN ha
    · exact canonicalNaN_of_not_isNaN hb
    · exact canonicalNaN_of_not_isNaN isNaN_negZero
    · exact canonicalNaN_of_not_isNaN isNaN_posZero
    · exact canonicalNaN_of_not_isNaN (isNaN_roundUnits _)

theorem canonicalNaN_fdiv32 (a b : Word) : canonicalNaN (fdiv32 a b) = true := by
  simp only [fdiv32]
  split_ifs
  · exact canonicalNaN_cNaN
  · exact canonicalNaN_cNaN
  · exact canonicalNaN_of_not_isNaN (isNaN_withSign_inf _)
  · exact canonicalNaN_of_not_isNaN (isNaN_withSign_zero _)
  · exact canonicalNaN_of_not_isNaN (isNaN_round32 _ _ _)

/-! The invariant, and what keeps it -/

theorem State.inv_iff (s : State) :
    s.inv = true ↔ s.cfg.legal = true ∧ legalPhase s.cfg.tableSize s.phase = true ∧
      canonicalNaN s.phaseIncrement = true ∧ s.sampleRate = s.cfg.sampleRate ∧ Memory.wf s.cfg s.table = true ∧
      ∀ r ∈ s.responses, r.fits s.cfg = true := by
  simp only [State.inv, Bool.and_eq_true, beq_iff_eq, List.all_eq_true, and_assoc]

/-- `+0` is a legal phase of every legal block (R22). -/
theorem legalPhase_zero {n : Nat} (hn : legalSize n) : legalPhase n 0x00000000#32 = true := by
  rw [legalPhase_iff hn]
  have hmag : mag 0x00000000#32 = 0 := by decide
  exact .inr ⟨by decide, by decide, hmag ▸ Nat.mul_pos hn.1 unitsPerOne_pos⟩

theorem inv_resetFor {c : Config} (h : c.legal = true) : (State.resetFor c).inv = true :=
  (State.inv_iff _).2
    ⟨h, legalPhase_zero (legalSize_of_legal h), canonicalNaN_of_not_isNaN isNaN_posZero, rfl, Memory.wf_nil c,
      List.forall_mem_nil _⟩

/-- The pending edges are no part of the invariant. -/
theorem inv_with_inputs {s : State} (h : s.inv = true) (edges : List PortEdge) :
    ({ s with inputs := edges } : State).inv = true := h

theorem inv_applyReset {s : State} (h : s.cfg.legal = true) : s.applyReset.inv = true := inv_resetFor h

theorem inv_takeResponse {s : State} (h : s.inv = true) (rspReady : Bool) : (s.takeResponse rspReady).inv = true := by
  obtain ⟨hl, hp, hi, hr, hw, hrs⟩ := s.inv_iff.1 h
  cases rspReady with
  | false => exact h
  | true => exact (State.inv_iff _).2 ⟨hl, hp, hi, hr, hw, fun r hmem => hrs r (List.mem_of_mem_tail hmem)⟩

theorem inv_respond {s : State} {st : Status} {d : Word} (h : s.inv = true)
    (hf : Response.fits s.cfg ⟨st, d⟩ = true) : (s.respond st d).inv = true := by
  obtain ⟨hl, hp, hi, hr, hw, hrs⟩ := s.inv_iff.1 h
  refine (State.inv_iff _).2 ⟨hl, hp, hi, hr, hw, fun r hmem => ?_⟩
  obtain hmem | hmem := List.mem_append.1 hmem
  · exact hrs r hmem
  · rw [List.mem_singleton.1 hmem]
    exact hf

theorem inv_with_phase {s : State} {p : Word} (h : s.inv = true) (hp : legalPhase s.cfg.tableSize p = true) :
    ({ s with phase := p } : State).inv = true := by
  obtain ⟨hl, _, hi, hr, hw, hrs⟩ := s.inv_iff.1 h
  exact (State.inv_iff _).2 ⟨hl, hp, hi, hr, hw, hrs⟩

theorem inv_with_phaseIncrement {s : State} {q : Word} (h : s.inv = true) (hq : canonicalNaN q = true) :
    ({ s with phaseIncrement := q } : State).inv = true := by
  obtain ⟨hl, hp, _, hr, hw, hrs⟩ := s.inv_iff.1 h
  exact (State.inv_iff _).2 ⟨hl, hp, hq, hr, hw, hrs⟩

theorem inv_with_table {s : State} {m : Memory} (h : s.inv = true) (hm : Memory.wf s.cfg m = true) :
    ({ s with table := m } : State).inv = true := by
  obtain ⟨hl, hp, hi, hr, _, hrs⟩ := s.inv_iff.1 h
  exact (State.inv_iff _).2 ⟨hl, hp, hi, hr, hm, hrs⟩

/-- The sample of a GET is a result of `fadd32` (R161), so it is no NaN but `cNaN`. -/
theorem canonicalNaN_sample (s : State) : canonicalNaN s.sample = true := canonicalNaN_fadd32 _ _

/-- The index of a BAD_INDEX response is outside the table and has 16 bits (R223). -/
theorem fits_badIndex {c : Config} {idx : Index} (h : c.tableSize ≤ idx.toNat) :
    Response.fits c ⟨.badIndex, zext32 idx⟩ = true := by
  have hidx := idx.isLt
  have hz : (zext32 idx).toNat = idx.toNat := BitVec.toNat_setWidth_of_le (by decide)
  simp [Response.fits, hz, h, hidx]

theorem CommandEffect.inv {s t : State} {w : Command} (hs : s.inv = true) (h : CommandEffect s w t) :
    t.inv = true := by
  obtain ⟨hl, hp, _, _, hw, _⟩ := s.inv_iff.1 hs
  have hn := legalSize_of_legal hl
  have hok : canonicalNaN 0 = true := by decide
  cases h with
  | illegal _ => exact inv_respond hs rfl
  | get hsample =>
    rw [lerp_of_legal hn hp] at hsample
    cases hsample
    exact inv_respond (inv_with_phase hs (legalPhase_advance hn _ _)) (canonicalNaN_sample s)
  | setf hz => exact inv_respond (inv_with_phaseIncrement hs (canonicalNaN_fdiv32 _ _)) hok
  | badIndex idx data hidx => exact inv_respond hs (fits_badIndex hidx)
  | wrt idx data hidx => exact inv_respond (inv_with_table hs (Memory.wf_write s.cfg data hw hidx)) hok

/-- Settles O14: each effect of a step keeps the invariant. -/
theorem stepKeepsInvariant : Obligations.StepKeepsInvariant := by
  intro s t hs h
  obtain ⟨hl, heff⟩ := stepEffect_of_step h
  cases heff with
  | idle _ => exact hs
  | reset _ _ => exact inv_applyReset hl
  | deliver _ _ _ => exact inv_takeResponse (inv_with_inputs hs _) _
  | command _ _ _ hw => exact hw.inv (inv_takeResponse (inv_with_inputs hs _) _)

/-! Reset -/

/-- Settles O10: the step at a reset edge is `applyReset`, whose table lists no difference from `TABLE_INIT`. -/
theorem resetEdgeLeavesResetState : Obligations.ResetEdgeLeavesResetState := by
  intro s e rest hl hi hr
  refine ⟨State.applyReset { s with inputs := rest }, ?_, rfl, rfl, fun i v hv => ?_, rfl, rfl, rfl, rfl⟩
  · rw [step_of_cons hl hi, runEdge, if_pos hr]
  · exact memRead_of_table_nil hl rfl hv

/-- Settles O13: at reset, both registers are `+0`, and neither a table difference nor a response is listed. -/
theorem resetMeetsInvariant : Obligations.ResetMeetsInvariant := fun _ => inv_resetFor

/-! Who writes each part of the state -/

/-- Settles O16: a step leaves the rate alone or at the strap value, and the two agree. -/
theorem sampleRateKeepsStrapValue : Obligations.SampleRateKeepsStrapValue := by
  refine ⟨resetFor_sampleRate, fun s t hs h => ?_⟩
  obtain ⟨hc, hr⟩ := (stepEffect_of_step h).2.cfg_and_sampleRate
  exact ⟨hc, hr.elim (·.trans hs) id⟩

/-- Settles O17: of the effects of a step, reset's and GET's alone write the phase. -/
theorem onlyGetAndResetWritePhase : Obligations.OnlyGetAndResetWritePhase := by
  intro s t h
  cases (stepEffect_of_step h).2 with
  | idle _ => exact .inl rfl
  | reset hi hr => exact .inr ⟨_, _, hi, .inl ⟨hr, rfl⟩⟩
  | deliver _ _ _ => exact .inl (by simp)
  | command hi hr hc hw =>
    cases hw with
    | get _ => exact .inr ⟨_, _, hi, .inr ⟨hr, hc, by simp⟩⟩
    | illegal _ | setf _ | badIndex _ _ _ | wrt _ _ _ => exact .inl (by simp)

/-- Settles O18: of the effects of a step, reset's and SETF's alone write the increment. -/
theorem onlySetfAndResetWriteIncrement : Obligations.OnlySetfAndResetWriteIncrement := by
  intro s t h
  cases (stepEffect_of_step h).2 with
  | idle _ => exact .inl rfl
  | reset hi hr => exact .inr ⟨_, _, hi, .inl ⟨hr, rfl⟩⟩
  | deliver _ _ _ => exact .inl (by simp)
  | command hi hr hc hw =>
    cases hw with
    | setf hz => exact .inr ⟨_, _, hi, .inr ⟨hz, hr, hc, by simp⟩⟩
    | illegal _ | get _ | badIndex _ _ _ | wrt _ _ _ => exact .inl (by simp)

/-- Settles O19: of the effects of a step, reset's and an in-range WRT's alone write the table; the canonical form that
the invariant asks for makes the written entry read as its word. -/
theorem onlyWrtAndResetWriteTable : Obligations.OnlyWrtAndResetWriteTable := by
  intro s t hs h
  obtain ⟨hl, _, _, _, hwf, _⟩ := s.inv_iff.1 hs
  cases (stepEffect_of_step h).2 with
  | idle _ => exact .inl fun _ => rfl
  | reset hi hr => exact .inr ⟨_, _, hi, .inl ⟨hr, fun _ _ hv => memRead_of_table_nil hl rfl hv⟩⟩
  | deliver _ _ _ => exact .inl (memRead_congr (by simp) (by simp))
  | command hi hr hc hw =>
    cases hw with
    | wrt idx data hidx =>
      have hidx' : idx.toNat < s.cfg.tableSize := by simpa using hidx
      exact .inr ⟨_, _, hi, .inr
        ⟨idx, data, hr, hc, hidx', memRead_of_table_write (by simp) (by simp) hwf hidx'⟩⟩
    | illegal _ | get _ | setf _ | badIndex _ _ _ => exact .inl (memRead_congr (by simp) (by simp))

end Sys2Proof.Machine
end

section
/-! PROOFS of 20_memory: what an entry reads as, and the canonical form of the table. -/

namespace Sys2Proof.Machine

/-- When `MemWrite` answers, and with which state (R43). -/
theorem memWrite_eq_ok_iff {s t : State} {i : Nat} {v : Word} :
    s.memWrite i v = .ok t ↔ i < s.cfg.tableSize ∧ t = { s with table := Memory.write s.cfg i v s.table } := by
  by_cases hi : i < s.cfg.tableSize
  · rw [memWrite_of_lt v hi, Except.ok.injEq, eq_comm, and_iff_right hi]
  · simp [State.memWrite, hi]

/-- Settles O23: the reset table lists no difference from `TABLE_INIT`, and in a canonical table a written entry reads as
its word. -/
theorem readReturnsLastWritten : Obligations.ReadReturnsLastWritten := by
  intro s i hl hwf hi
  refine ⟨⟨_, memRead_of_lt hi⟩, fun v hv => ?reset, fun v => ?write⟩
  case reset => exact memRead_of_table_nil (s := State.resetFor s.cfg) hl rfl hv
  case write => exact ⟨_, memWrite_of_lt v hi, memRead_of_table_write rfl rfl hwf hi⟩

/-- Settles O24: a write that answers is to an entry that exists, and such a write keeps the form. -/
theorem tableWriteKeepsCanonicalForm : Obligations.TableWriteKeepsCanonicalForm := by
  intro s t i v hwf h
  obtain ⟨hi, rfl⟩ := memWrite_eq_ok_iff.1 h
  exact Memory.wf_write s.cfg v hwf hi

/-- Settles O25: by `Memory.wfFrom_ext`, an induction on both lists; a smaller first index on one side would be an entry
that reads differently on the other. -/
theorem canonicalTablesReadingAlikeAreEqual : Obligations.CanonicalTablesReadingAlikeAreEqual :=
  fun c _ _ h h' hr => Memory.wf_ext c h h' hr

end Sys2Proof.Machine
end

section
/-! PROOFS of 44_float_arithmetic R192: `round32` answers the nearest of the pattern magnitudes, and so the nearest of
the values of either sign. -/

namespace Sys2Proof.Machine

/-! Nearest magnitude -/

/-- `roundMag_le_iff` with the exact result as a rational number. -/
theorem roundMag_le_iff_rat {num den p : Nat} (hd : 0 < den) (hp : p < 0x7F800000) :
    roundMag num den ≤ p ↔
      2 * ((num : Rat) / den) < patMag p + patMag (p + 1) ∨
        (2 * ((num : Rat) / den) = patMag p + patMag (p + 1) ∧ p % 2 = 0) := by
  have hd' : (0 : Rat) < den := Nat.cast_pos.2 hd
  rw [roundMag_le_iff num hd hp, mul_div_assoc', div_lt_iff₀ hd', div_eq_iff hd'.ne']
  norm_cast

/-- A point `b` is as near to `y` as `a` when `y` lies on its side of their midpoint. -/
theorem abs_sub_le_of_midpoint {y a b : Rat} (h : 0 ≤ (b - a) * (2 * y - (a + b))) : |y - b| ≤ |y - a| := by
  rw [← sq_le_sq]
  linear_combination h

/-- Points equally near to `y` are equal, or `y` is their midpoint. -/
theorem midpoint_of_abs_sub_eq {y a b : Rat} (h : |y - b| = |y - a|) : b = a ∨ 2 * y = a + b := by
  obtain h | h := abs_eq_abs.1 h
  · exact .inl (by linarith)
  · exact .inr (by linarith)

/-- No pattern magnitude is nearer than the rounded one, and where another is equally near the rounded one is even. -/
theorem roundMag_nearest {num den p : Nat} (hd : 0 < den) (hr : roundMag num den = p) (hp : p < 0x7F800000) (q : Nat) :
    |(num : Rat) / den - patMag p| ≤ |(num : Rat) / den - patMag q| ∧
      (|(num : Rat) / den - patMag p| = |(num : Rat) / den - patMag q| → q ≠ p → p % 2 = 0) := by
  have inj {a b : Nat} (h : (patMag a : Rat) = patMag b) : a = b := patMag_inj.1 (Nat.cast_inj.1 h)
  have mono {a b : Nat} (h : a ≤ b) : (patMag a : Rat) ≤ patMag b := Nat.cast_le.2 (patMag_le.2 h)
  rcases Nat.lt_trichotomy q p with hqp | rfl | hpq
  case inl =>
    obtain ⟨r, rfl⟩ : ∃ r, p = r + 1 := ⟨p - 1, by omega⟩
    have hbound := (roundMag_le_iff_rat (num := num) (p := r) hd (by omega)).not.1 (by omega)
    rw [not_or, not_lt, not_and] at hbound
    obtain ⟨hle, hodd⟩ := hbound
    have hq := mono (Nat.le_of_lt_succ hqp)
    have hr' := mono (Nat.le_succ r)
    refine ⟨abs_sub_le_of_midpoint (mul_nonneg (by linarith) (by linarith)), fun heq hne => ?_⟩
    obtain h | h := midpoint_of_abs_sub_eq heq
    · exact absurd (inj h).symm hne
    · have := hodd (by linarith)
      omega
  case inr.inl => exact ⟨le_rfl, fun _ h => absurd rfl h⟩
  case inr.inr =>
    have hbound := (roundMag_le_iff_rat hd hp).1 hr.le
    have hq := mono (Nat.succ_le_of_lt hpq)
    have hp' := mono (Nat.le_succ p)
    have hle : 2 * ((num : Rat) / den) ≤ patMag p + patMag (p + 1) := hbound.elim le_of_lt fun h => h.1.le
    refine ⟨abs_sub_le_of_midpoint (mul_nonneg_of_nonpos_of_nonpos (by linarith) (by linarith)), fun heq hne => ?_⟩
    obtain h | h := midpoint_of_abs_sub_eq heq
    · exact absurd (inj h).symm hne
    · exact (hbound.resolve_left (by linarith)).2

/-- Nor is the negative of a pattern magnitude nearer; where one is equally near, the rounded one is even or both are
zero. -/
theorem roundMag_nearest_neg {num den p : Nat} (hn : 0 < num) (hd : 0 < den) (hr : roundMag num den = p)
    (hp : p < 0x7F800000) (q : Nat) :
    |(num : Rat) / den - patMag p| ≤ |(num : Rat) / den + patMag q| ∧
      (|(num : Rat) / den - patMag p| = |(num : Rat) / den + patMag q| → p % 2 = 0 ∨ patMag p = 0 ∧ patMag q = 0) := by
  obtain ⟨hle, htie⟩ := roundMag_nearest hd hr hp q
  have hy : (0 : Rat) < (num : Rat) / den := div_pos (Nat.cast_pos.2 hn) (Nat.cast_pos.2 hd)
  have hq : (0 : Rat) ≤ patMag q := Nat.cast_nonneg _
  have hfar : |(num : Rat) / den - patMag q| ≤ |(num : Rat) / den + patMag q| := by
    rw [abs_of_pos (by linarith : 0 < (num : Rat) / den + patMag q), abs_le]
    constructor <;> linarith
  refine ⟨hle.trans hfar, fun heq => ?_⟩
  by_cases hqp : q = p
  · right
    have hzero : (patMag q : Rat) = 0 := by
      rw [← sub_neg_eq_add, ← hqp] at heq
      obtain h | h := midpoint_of_abs_sub_eq heq <;> linarith
    rw [← hqp, and_self]
    exact Nat.cast_eq_zero.1 hzero
  · exact .inl (htie (le_antisymm hle (hfar.trans heq.ge)) hqp)

/-! Nearest value -/

/-- The distance of a value from `±y`, in units: that of the magnitudes, or their sum when the signs differ. -/
theorem abs_sub_value (neg : Bool) (y : Rat) (v : Word) :
    |(if neg then -1 else 1) * (y / unitsPerOne) - value v| =
      |y - (if signBit v = neg then 1 else -1) * mag v| / unitsPerOne := by
  have hU : (0 : Rat) < unitsPerOne := Nat.cast_pos.2 unitsPerOne_pos
  rw [← abs_of_pos hU, ← abs_div, abs_of_pos hU, abs_eq_abs, value, units]
  cases neg
  · left
    cases signBit v <;> simp <;> ring
  · right
    cases signBit v <;> simp <;> ring

theorem value_eq_zero_of_mag {w : Word} (h : mag w = 0) : value w = 0 := by
  rw [value, (units_eq_zero w).2 ((mag_eq_zero w).1 h), Int.cast_zero, zero_div]

/-- The threshold of R192 is where the interval of the largest finite magnitude ends. -/
theorem isFinite_round32_iff (neg : Bool) (num : Nat) {den : Nat} (hd : 0 < den) :
    isFinite (round32 neg num den) = true ↔ (num : Rat) / (den * unitsPerOne) < overflowThreshold := by
  have hU : (0 : Rat) < unitsPerOne := Nat.cast_pos.2 unitsPerOne_pos
  have hmax : (patMag 0x7F7FFFFF : Rat) + patMag (0x7F7FFFFF + 1) = 2 * (overflowThreshold * unitsPerOne) := by
    norm_num [patMag, magOf, overflowThreshold, unitsPerOne]
  rw [isFinite_iff, lowBits_round32, Nat.lt_iff_le_pred (by decide), roundMag_le_iff_rat hd (by decide),
    or_iff_left (fun h => absurd h.2 (by decide)), hmax, mul_lt_mul_iff_right₀ two_pos, ← div_lt_iff₀ hU, div_div]

/-- `round32` is the rounding of R192 of every magnitude but zero. -/
theorem roundsTo_round32 (neg : Bool) {num den : Nat} (hn : 0 < num) (hd : 0 < den) :
    RoundsTo ((if neg then -1 else 1) * ((num : Rat) / (den * unitsPerOne))) (round32 neg num den) := by
  have hU : (0 : Rat) < unitsPerOne := Nat.cast_pos.2 unitsPerOne_pos
  have hy : (0 : Rat) < (num : Rat) / den := div_pos (Nat.cast_pos.2 hn) (Nat.cast_pos.2 hd)
  have hx : (0 : Rat) < (num : Rat) / (den * unitsPerOne) := div_div (num : Rat) den unitsPerOne ▸ div_pos hy hU
  have habs : |(if neg then -1 else 1) * ((num : Rat) / (den * unitsPerOne))| = (num : Rat) / (den * unitsPerOne) := by
    cases neg <;> simp [abs_of_pos hx]
  refine ⟨?sign, fun h => ?overflow, fun h => ?nearest⟩
  case sign =>
    rw [signBit_round32]
    cases neg
    · exact (decide_eq_false (by simpa using hx.le)).symm
    · exact (decide_eq_true (by simpa using hx)).symm
  case overflow =>
    rw [habs, ← not_lt, ← isFinite_round32_iff neg num hd, Bool.not_eq_true] at h
    rw [isInf_round32, h, Bool.not_false]
  case nearest =>
    rw [habs, ← isFinite_round32_iff neg num hd] at h
    refine ⟨h, fun v hv => ?_⟩
    have hp : roundMag num den < 0x7F800000 := by rwa [isFinite_iff, lowBits_round32] at h
    rw [← div_div, abs_sub_value, abs_sub_value, signBit_round32, if_pos rfl, one_mul,
      div_le_div_iff_of_pos_right hU, div_left_inj' hU.ne', mag_round32, mag_eq_patMag v, fracField_eq, lowBits_round32]
    by_cases hs : signBit v = neg
    · obtain ⟨hle, htie⟩ := roundMag_nearest hd rfl hp (lowBits v)
      rw [if_pos hs, one_mul]
      refine ⟨hle, fun heq hne => ?_⟩
      have := htie heq fun hq => hne (congrArg value (word_ext (by simpa using hs) (by simpa using hq)))
      omega
    · obtain ⟨hle, htie⟩ := roundMag_nearest_neg hn hd rfl hp (lowBits v)
      rw [if_neg hs, neg_one_mul, sub_neg_eq_add]
      refine ⟨hle, fun heq hne => ?_⟩
      obtain h | ⟨hw, hv⟩ := htie heq
      · omega
      · rw [← mag_round32 neg] at hw
        rw [← mag_eq_patMag] at hv
        exact absurd ((value_eq_zero_of_mag hv).trans (value_eq_zero_of_mag hw).symm) hne

end Sys2Proof.Machine
end

section
/-! PROOFS of 30_encoding: the decoder and the encoder. -/

namespace Sys2Proof.Machine

/-! The decoding algorithm (R67), one equation per outcome -/

section
variable {w : Command}

theorem decode_reservedField (hrsv : rsvField w ≠ 0) : decode w = .error .reservedField := if_pos hrsv

theorem decode_getOperand (hrsv : rsvField w = 0) (hop : opField w = 0b001#3)
    (hused : idxField w ≠ 0 ∨ dataField w ≠ 0) : decode w = .error .getOperand := by
  rw [decode, if_neg (not_not.2 hrsv), if_pos hop, if_pos hused]

theorem decode_get (hrsv : rsvField w = 0) (hop : opField w = 0b001#3) (hidx : idxField w = 0)
    (hdata : dataField w = 0) : decode w = .ok .get := by
  rw [decode, if_neg (not_not.2 hrsv), if_pos hop, if_neg (not_or.2 ⟨not_not.2 hidx, not_not.2 hdata⟩)]

theorem decode_setfIndex (hrsv : rsvField w = 0) (hop : opField w = 0b010#3) (hidx : idxField w ≠ 0) :
    decode w = .error .setfIndex := by
  rw [decode, if_neg (not_not.2 hrsv), hop, if_neg (by decide), if_pos rfl, if_pos hidx]

theorem decode_setf (hrsv : rsvField w = 0) (hop : opField w = 0b010#3) (hidx : idxField w = 0) :
    decode w = .ok (.setf (dataField w)) := by
  rw [decode, if_neg (not_not.2 hrsv), hop, if_neg (by decide), if_pos rfl, if_neg (not_not.2 hidx)]

theorem decode_wrt (hrsv : rsvField w = 0) (hop : opField w = 0b011#3) :
    decode w = .ok (.wrt (idxField w) (dataField w)) := by
  rw [decode, if_neg (not_not.2 hrsv), hop, if_neg (by decide), if_neg (by decide), if_pos rfl]

theorem decode_reservedOp (hrsv : rsvField w = 0) (hget : opField w ≠ 0b001#3) (hsetf : opField w ≠ 0b010#3)
    (hwrt : opField w ≠ 0b011#3) : decode w = .error .reservedOp := by
  rw [decode, if_neg (not_not.2 hrsv), if_neg hget, if_neg hsetf, if_neg hwrt]

end

/-- The word of a command holds its fields, and the decoder reads them back (R61, R64). -/
theorem decode_encode (i : Instr) : decode (encode i) = .ok i := by
  cases i with
  | get =>
    obtain ⟨hop, hrsv, hidx, hdata⟩ := Laws.fields_packFields 0b001#3 0 0 0
    exact decode_get hrsv hop hidx hdata
  | setf hz =>
    obtain ⟨hop, hrsv, hidx, hdata⟩ := Laws.fields_packFields 0b010#3 0 0 hz
    rw [encode, decode_setf hrsv hop hidx, hdata]
  | wrt idx data =>
    obtain ⟨hop, hrsv, hidx, hdata⟩ := Laws.fields_packFields 0b011#3 0 idx data
    rw [encode, decode_wrt hrsv hop, hidx, hdata]

/-- Settles O1: of each command, by the fields of its word. -/
theorem decodeOfEncodeIsTheCommand : Obligations.DecodeOfEncodeIsTheCommand := decode_encode

/-- Settles O2: the tests of R67 leave no bit of the word free. -/
theorem encodeOfDecodeIsTheWord : Obligations.EncodeOfDecodeIsTheWord := fun _ _ => encode_of_decode

theorem decode_eq_ok_iff {w : Command} {i : Instr} : decode w = .ok i ↔ encode i = w :=
  ⟨encode_of_decode, fun h => h ▸ decode_encode i⟩

/-! The rows of the opcode map (R64) -/

theorem encode_get_eq_iff {w : Command} :
    encode .get = w ↔ w &&& 0xFFFF_FFFF_FFFF_FFFF#64 = 0x2000_0000_0000_0000#64 := by
  have hmask : 0xFFFF_FFFF_FFFF_FFFF#64 = BitVec.allOnes 64 := by decide
  have hword : encode .get = 0x2000_0000_0000_0000#64 := by decide
  rw [hmask, BitVec.and_allOnes, hword, eq_comm]

/-- A row whose mask is the bits from `k` up fixes the word's bits from `k` up. -/
theorem toNat_div_of_and_highMask {w row : Command} {k : Nat} (h : w &&& (BitVec.allOnes 64 <<< k) = row) :
    w.toNat / 2 ^ k = row.toNat / 2 ^ k := by
  rw [← h, Laws.toNat_and_highMask, Nat.mul_div_cancel _ (by positivity)]

theorem encode_setf_eq_iff {w : Command} {hz : Word} :
    encode (.setf hz) = w ↔
      w &&& 0xFFFF_FFFF_0000_0000#64 = 0x4000_0000_0000_0000#64 ∧ hz = w.extractLsb' 0 32 := by
  constructor
  · rintro rfl
    obtain ⟨-, -, -, hdata⟩ := Laws.fields_packFields 0b010#3 0 0 hz
    exact ⟨Laws.OpcodeRow.setf hz, hdata.symm⟩
  · rintro ⟨hrow, rfl⟩
    apply BitVec.eq_of_toNat_eq
    replace hrow := toNat_div_of_and_highMask (Laws.setfMask ▸ hrow)
    simp only [encode, Laws.toNat_packFields, BitVec.extractLsb'_toNat, BitVec.ofNat_eq_ofNat, BitVec.toNat_ofNat,
      Nat.shiftRight_zero] at hrow ⊢
    omega

theorem encode_wrt_eq_iff {w : Command} {idx : Index} {data : Word} :
    encode (.wrt idx data) = w ↔
      w &&& 0xFFFF_0000_0000_0000#64 = 0x6000_0000_0000_0000#64 ∧
        idx = w.extractLsb' 32 16 ∧ data = w.extractLsb' 0 32 := by
  constructor
  · rintro rfl
    obtain ⟨-, -, hidx, hdata⟩ := Laws.fields_packFields 0b011#3 0 idx data
    exact ⟨Laws.OpcodeRow.wrt idx data, hidx.symm, hdata.symm⟩
  · rintro ⟨hrow, rfl, rfl⟩
    apply BitVec.eq_of_toNat_eq
    replace hrow := toNat_div_of_and_highMask (Laws.wrtMask ▸ hrow)
    simp only [encode, Laws.toNat_packFields, BitVec.extractLsb'_toNat, BitVec.ofNat_eq_ofNat, BitVec.toNat_ofNat,
      Nat.shiftRight_eq_div_pow] at hrow ⊢
    omega

/-- Settles O3: a word selects a row exactly when it is the word of that row's command, and it decodes to one command at
most. -/
theorem wordSelectsItsRow : Obligations.WordSelectsItsRow := by
  intro w
  have hget : decode w = .ok .get ↔ _ := decode_eq_ok_iff.trans encode_get_eq_iff
  have hsetf (hz : Word) : decode w = .ok (.setf hz) ↔ _ := decode_eq_ok_iff.trans encode_setf_eq_iff
  have hwrt (idx : Index) (data : Word) : decode w = .ok (.wrt idx data) ↔ _ :=
    decode_eq_ok_iff.trans encode_wrt_eq_iff
  refine ⟨hget, hsetf, hwrt, fun ⟨h, h'⟩ => ?_, fun ⟨h, h'⟩ => ?_, fun ⟨h, h'⟩ => ?_, fun hg hs hw => ?_⟩
  · cases (hget.2 h).symm.trans ((hsetf _).2 ⟨h', rfl⟩)
  · cases (hget.2 h).symm.trans ((hwrt _ _).2 ⟨h', rfl, rfl⟩)
  · cases ((hsetf _).2 ⟨h, rfl⟩).symm.trans ((hwrt _ _).2 ⟨h', rfl, rfl⟩)
  · cases hd : decode w with
    | error e => exact ⟨e, rfl⟩
    | ok i =>
      cases i with
      | get => exact absurd (hget.1 hd) hg
      | setf hz => exact absurd ((hsetf hz).1 hd).1 hs
      | wrt idx data => exact absurd ((hwrt idx data).1 hd).1 hw

/-- Settles O4: each of R67's tests is one equation of the decoder, and the range test after it is `decodeFor`'s. -/
theorem decodingAlgorithmInOrder : Obligations.DecodingAlgorithmInOrder := by
  intro n w op rsv idx data
  refine ⟨fun hr => ?_, fun hr ho hu => ?_, fun hr ho hi hd => ?_, fun hr ho hi => ?_, fun hr ho hi => ?_,
    fun hr ho hn => ?_, fun hr ho hn => ?_, fun hr hg hs hw => ?_⟩ <;> unfold decodeFor
  · rw [decode_reservedField hr]
  · rw [decode_getOperand hr ho hu]
  · rw [decode_get hr ho hi hd]
  · rw [decode_setfIndex hr ho hi]
  · rw [decode_setf hr ho hi]
    rfl
  · rw [decode_wrt hr ho]
    exact if_pos hn
  · rw [decode_wrt hr ho]
    exact if_neg (not_le.2 hn)
  · rw [decode_reservedOp hr hg hs hw]

/-- Settles O5: each of the four is the word of its command. -/
theorem writtenWordsDecode : Obligations.WrittenWordsDecode := by
  refine ⟨?_, ?_, ?_, ?_⟩ <;> exact decode_eq_ok_iff.2 (by decide)

/-! The response word (R62) -/

theorem toNat_responseWord (r : Response) : r.word.toNat = r.status.code.toNat * 2 ^ 32 + r.data.toNat := by
  rw [Response.word, BitVec.toNat_append, ← Nat.shiftLeft_add_eq_or_of_lt r.data.isLt, Nat.shiftLeft_eq]

theorem fields_responseWord (r : Response) :
    r.word.extractLsb' 0 32 = r.data ∧ r.word.extractLsb' 32 2 = r.status.code := by
  have hcode := r.status.code.isLt
  have hdata := r.data.isLt
  constructor <;> apply BitVec.eq_of_toNat_eq <;>
    simp only [BitVec.extractLsb'_toNat, toNat_responseWord, Nat.shiftRight_eq_div_pow] <;>
    omega

/-- Settles O6: the two fields are what was appended, and `3` is the code of no status. -/
theorem responseWordLayout : Obligations.ResponseWordLayout := by
  intro r
  obtain ⟨hdata, hcode⟩ := fields_responseWord r
  rw [hdata, hcode]
  cases r.status <;> exact ⟨rfl, rfl, by decide⟩

/-! The words of R65 -/

theorem listedIllegal_of_error {w : Command} {e : DecodeError} (h : decode w = .error e) : listedIllegal w := by
  unfold decode at h
  split_ifs at h with hrsv hget hused hsetf hidx hwrt
  · exact .inr (.inl hrsv)
  · exact .inr (.inr (.inl ⟨hget, hused⟩))
  · exact .inr (.inr (.inr ⟨hsetf, hidx⟩))
  · have hops : ∀ op : BitVec 3, op ≠ 0b001#3 → op ≠ 0b010#3 → op ≠ 0b011#3 →
        op = 0b000#3 ∨ op = 0b100#3 ∨ op = 0b101#3 ∨ op = 0b110#3 ∨ op = 0b111#3 := by decide
    exact .inl (hops _ hget hsetf hwrt)

theorem not_listedIllegal_encode (i : Instr) : ¬listedIllegal (encode i) := by
  cases i <;> simp [listedIllegal, encode, Laws.fields_packFields]

/-- A word is illegal exactly when it is on the list: the rest are the words of commands. -/
theorem decode_error_iff {w : Command} : (∃ e, decode w = .error e) ↔ listedIllegal w := by
  refine ⟨fun ⟨_, h⟩ => listedIllegal_of_error h, fun h => ?_⟩
  cases hd : decode w with
  | error e => exact ⟨e, rfl⟩
  | ok i => exact absurd (encode_of_decode hd ▸ h) (not_listedIllegal_encode i)

/-! A step on a command word (R60) -/

/-- The edge's delivery comes first, then the command (log 4). -/
theorem step_of_command {s : State} {w : Command} {rdy : Bool} {rest : List PortEdge} (hl : s.cfg.legal = true)
    (hi : s.inputs = { rst := false, cmd := some w, rspReady := rdy } :: rest) :
    step s = runCommand w (State.takeResponse { s with inputs := rest } rdy) := by
  rw [step_of_cons hl hi, runEdge, if_neg Bool.false_ne_true]

theorem runCommand_of_ok {w : Command} {i : Instr} (h : decode w = .ok i) (s : State) : runCommand w s = exec i s := by
  rw [runCommand, h]

theorem runCommand_of_error {w : Command} {e : DecodeError} (h : decode w = .error e) (s : State) :
    runCommand w s = .next (s.raise .illegalCmd) := by
  rw [runCommand, h]

theorem decodeTableWord_eq_some_iff {nbits w : Nat} {i : Instr} :
    decodeTableWord nbits w = some i ↔ decode (commandOfBits nbits w) = .ok i := by
  unfold decodeTableWord
  split <;> simp_all

/-- Settles O7: the pending edge, or the one that `withFetchWord` puts before the others, is a command edge. -/
theorem stepRunsTheDecodedCommand : Obligations.StepRunsTheDecodedCommand := by
  intro s i hl
  refine ⟨fun w rdy rest hi hd => ?_, fun nbits w hd => ?_⟩
  · rw [step_of_command hl hi, takeResponse_eq, runCommand_of_ok hd]
    rfl
  · rw [step_of_command (s := s.withFetchWord nbits w) hl rfl, runCommand_of_ok (decodeTableWord_eq_some_iff.1 hd)]
    rfl

/-- Settles O8: R65's list is where decoding fails, and there the step raises ILLEGAL_CMD. -/
theorem illegalWordsAnswered : Obligations.IllegalWordsAnswered := by
  refine ⟨fun _ => decode_error_iff, .inl (.inl (by decide)), .inr (.inl (by decide)), fun w hrsv hop => ?wrt,
    fun s w rdy rest hl hi hw => ?answer⟩
  case wrt =>
    rw [← encode_of_decode (decode_wrt hrsv hop)]
    exact not_listedIllegal_encode _
  case answer =>
    obtain ⟨e, hd⟩ := decode_error_iff.2 hw
    rw [step_of_command hl hi, takeResponse_eq, runCommand_of_error hd]
    rfl

/-! Every accepted word is answered -/

/-- In a block with the invariant no command stops: GET's phase is legal, and WRT tests its index (R111, R167). -/
theorem exists_runCommand {s : State} (hs : s.inv = true) (w : Command) : ∃ t, runCommand w s = .next t := by
  obtain ⟨hl, hp, -⟩ := s.inv_iff.1 hs
  cases hd : decode w with
  | error e => exact ⟨_, runCommand_of_error hd s⟩
  | ok i =>
    rw [runCommand_of_ok hd]
    cases i with
    | get => exact ⟨_, execGet_of_legal (legalSize_of_legal hl) hp⟩
    | setf hz => exact ⟨_, rfl⟩
    | wrt idx data =>
      rw [exec, execWrt_eq]
      split <;> exact ⟨_, rfl⟩

/-- Each command adds one response after the earlier ones (R49) and leaves the pending edges alone. -/
theorem CommandEffect.answers {s t : State} {w : Command} (h : CommandEffect s w t) :
    t.inputs = s.inputs ∧ ∃ r, t.responses = s.responses ++ [r] := by
  cases h <;> exact ⟨rfl, _, rfl⟩

/-- Settles O9: the accepted word is run, and whatever its effect, it adds one response. -/
theorem acceptedCommandAnsweredOnce : Obligations.AcceptedCommandAnsweredOnce := by
  intro s w rdy rest hs hi
  obtain ⟨t, ht⟩ := exists_runCommand (inv_takeResponse (inv_with_inputs hs rest) rdy) w
  obtain ⟨hin, r, hr⟩ := (commandEffect_of_runCommand ht).answers
  refine ⟨t, r, (step_of_command (s.inv_iff.1 hs).1 hi).trans ht, hin.trans (by simp), ?_⟩
  rw [hr, takeResponse_eq]
  rfl

/-- Settles O15: of the cases of a step, an accepted word alone could stop it, and none does. -/
theorem legalBlockNeverStops : Obligations.LegalBlockNeverStops := by
  intro s hs
  have hl := (s.inv_iff.1 hs).1
  cases hi : s.inputs with
  | nil => exact ⟨s, step_of_nil hl hi⟩
  | cons e rest =>
    rw [step_of_cons hl hi]
    obtain ⟨-, he⟩ | ⟨-, -, he⟩ | ⟨w, -, -, he⟩ := runEdge_cases e { s with inputs := rest }
    · exact ⟨_, he⟩
    · exact ⟨_, he⟩
    · rw [he]
      exact exists_runCommand (inv_takeResponse (inv_with_inputs hs rest) e.rspReady) w

/-! Literals (R68) -/

/-- A decimal that is no zero denotes its rounding (R68): the literal's digits are scaled to units of `2^−149`. -/
theorem roundsTo_literalPattern_dec (neg : Bool) {digits : Nat} (exp10 : Int) (hd : 0 < digits) :
    RoundsTo ((if neg then -1 else 1) * (digits * (10 : Rat) ^ exp10)) (literalPattern (.dec neg digits exp10)) := by
  have hU : (unitsPerOne : Rat) ≠ 0 := Nat.cast_ne_zero.2 unitsPerOne_pos.ne'
  rw [literalPattern, if_neg hd.ne']
  cases exp10 with
  | ofNat n =>
    have hx : (digits : Rat) * 10 ^ Int.ofNat n =
        (digits * 10 ^ n * unitsPerOne : Nat) / ((1 : Nat) * unitsPerOne) := by
      rw [Int.ofNat_eq_natCast, zpow_natCast]
      push_cast
      field_simp
    rw [if_pos (show 0 ≤ Int.ofNat n from Int.natCast_nonneg n), hx]
    exact roundsTo_round32 neg (Nat.mul_pos (by positivity) unitsPerOne_pos) one_pos
  | negSucc n =>
    have hx : (digits : Rat) * 10 ^ Int.negSucc n =
        (digits * unitsPerOne : Nat) / ((10 ^ (n + 1) : Nat) * unitsPerOne) := by
      rw [zpow_negSucc]
      push_cast
      field_simp
    rw [if_neg (not_le.2 (Int.negSucc_lt_zero n)), hx]
    exact roundsTo_round32 neg (Nat.mul_pos hd unitsPerOne_pos) (by positivity)

/-- Settles O57: `roundsTo_round32` of the scaled digits; the special words and hex patterns are read off. -/
theorem decimalLiteralIsNearest : Obligations.DecimalLiteralIsNearest :=
  ⟨fun neg _ exp10 hd => roundsTo_literalPattern_dec neg exp10 hd, rfl, rfl, rfl, fun _ => rfl⟩

end Sys2Proof.Machine
end

section
/-! PROOFS of 40_wave_table_builder_host: the two forms of an overtone set, the table built from the empty set, and the
builder's exact entries. -/

namespace Sys2Proof.Machine

/-! The two forms of a set, and what `Build` reads of it (R91) -/

/-- A list read off into `m` optional slots, and the absent ones dropped again, is the list. -/
theorem filterMap_id_ofFn_getElem? {α : Type} {m : Nat} {xs : List α} (h : xs.length ≤ m) :
    (List.ofFn fun k : Fin m => xs[k.val]?).filterMap id = xs := by
  induction m generalizing xs with
  | zero => rw [List.length_eq_zero_iff.1 (Nat.le_zero.1 h)]; rfl
  | succ m ih =>
    cases xs with
    | nil => simp
    | cons x xs => simpa [List.ofFn_succ] using ih (xs := xs) (Nat.le_of_succ_le_succ h)

/-- The set of a bounded sequence has that sequence's overtones present, in its order. -/
theorem exists_overtoneSetOf {ps : List Overtone} (h : ps.length ≤ Config.maxOvertones) :
    ∃ os, overtoneSetOf ps = some os ∧ presentOvertones os = ps := by
  refine ⟨_, if_pos h, ?_⟩
  rw [presentOvertones, Vector.toList_ofFn]
  exact filterMap_id_ofFn_getElem? h

theorem overtoneCount_le (os : OvertoneSet) : overtoneCount os ≤ Config.maxOvertones :=
  (List.length_filterMap_le id os.slots.toList).trans os.slots.length_toList.le

theorem overtoneCount_congr {os os' : OvertoneSet} (h : presentOvertones os = presentOvertones os') :
    overtoneCount os = overtoneCount os' := congrArg List.length h

theorem build_congr {os os' : OvertoneSet} (h : presentOvertones os = presentOvertones os') (n : Nat) :
    build n os = build n os' := by
  rw [build, build, overtoneCount_congr h, h]

theorem exactEntry_congr {os os' : OvertoneSet} (h : presentOvertones os = presentOvertones os') (n i : Nat) :
    exactEntry n os i = exactEntry n os' i := by
  rw [exactEntry, exactEntry, overtoneCount_congr h, h]

/-- Settles O59: the round trip through the slots, their number, and `Build` as a function of the present overtones. -/
theorem buildSeesOnlyPresentOvertones : Obligations.BuildSeesOnlyPresentOvertones := by
  refine ⟨fun ps h => ?_, fun ps h => if_neg (not_le.2 h), overtoneCount_le,
    fun n os os' h => ⟨build_congr h n, exactEntry_congr h n⟩⟩
  obtain ⟨os, hos, hp⟩ := exists_overtoneSetOf h
  exact ⟨os, hos, hp, congrArg List.length hp⟩

/-! The empty set (R94) -/

theorem isNaN_nanEntry (i : Nat) : isNaN (nanEntry i) = true := by
  unfold nanEntry
  split
  · assumption
  · exact isNaN_cNaN

theorem length_build (n : Nat) (os : OvertoneSet) : (build n os).length = n := by simp [build]

theorem isNaN_of_mem_build {n : Nat} {os : OvertoneSet} (h : overtoneCount os = 0) {v : Word} (hv : v ∈ build n os) :
    isNaN v = true := by
  obtain ⟨i, -, rfl⟩ := List.mem_map.1 hv
  rw [if_pos h]
  exact isNaN_nanEntry i

/-- A NaN for the first entry alone makes the weighted average `cNaN`: its product is a NaN, and so the sum (R196). -/
theorem mix_of_isNaN_left (frac : Word) {t0 : Word} (h : isNaN t0 = true) (t1 : Word) : mix frac t0 t1 = cNaN := by
  simp only [mix, fmul32_nan (.inr h), fadd32_nan (.inl isNaN_cNaN)]

/-- Settles O54: the built entries are `nanEntry`s, and a NaN at the phase's base index makes the sample `cNaN`. -/
theorem emptySetGivesNanSamples : Obligations.EmptySetGivesNanSamples := by
  refine ⟨fun n os h => ⟨length_build n os, fun v => isNaN_of_mem_build h⟩, fun s hl hp hnan => ?_⟩
  have hn := legalSize_of_legal hl
  have hbase := baseIndex_lt hn hp
  obtain ⟨v, hv, hvnan⟩ := hnan _ hbase
  obtain rfl : Memory.read s.cfg s.table (baseIndex s.phase) = v := by
    rw [memRead_of_lt hbase] at hv
    exact Except.ok.inj hv
  refine ⟨_, execGet_of_legal hn hp, ?_⟩
  rw [respond_responses, State.sample, mix_of_isNaN_left _ hvnan]

/-! The bound on the exact entries (R99) -/

/-- In a sum of multiples of sines, the sum of the factors' magnitudes bounds the whole. -/
theorem abs_sum_sin_mul_le {α : Type} (angle factor : α → Real) (xs : List α) :
    |(xs.map fun x => Real.sin (angle x) * factor x).sum| ≤ (xs.map fun x => |factor x|).sum := by
  induction xs with
  | nil => simp
  | cons x xs ih =>
    simp only [List.map_cons, List.sum_cons]
    refine (abs_add_le _ _).trans (add_le_add ?_ ih)
    rw [abs_mul]
    exact mul_le_of_le_one_left (abs_nonneg _) (Real.abs_sin_le_one _)

theorem abs_exactEntry_le (n : Nat) (os : OvertoneSet) (i : Nat) :
    |exactEntry n os i| ≤
      (1 / overtoneCount os) * ((presentOvertones os).map fun o => |(value o.volume : Real)|).sum := by
  have hcount : (0 : Real) ≤ 1 / overtoneCount os := by positivity
  rw [exactEntry, abs_mul, abs_of_nonneg hcount, mul_comm]
  exact mul_le_mul_of_nonneg_left (abs_sum_sin_mul_le _ _ _) hcount

/-- Volumes of magnitude at most 1 average at most 1. -/
theorem average_volumes_le_one {os : OvertoneSet} (hpos : 0 < overtoneCount os)
    (h : ∀ o ∈ presentOvertones os, |(value o.volume : Real)| ≤ 1) :
    (1 / overtoneCount os) * ((presentOvertones os).map fun o => |(value o.volume : Real)|).sum ≤ 1 := by
  have hsum := List.sum_le_card_nsmul ((presentOvertones os).map fun o => |(value o.volume : Real)|) 1
    (by simpa using h)
  rw [List.length_map, nsmul_one] at hsum
  rw [one_div_mul_eq_div]
  exact (div_le_one (Nat.cast_pos.2 hpos)).2 hsum

/-- Settles O55: the sines are at most 1, term by term, and then so is the average if the volumes are. -/
theorem averagedEntryIsBounded : Obligations.AveragedEntryIsBounded := fun n os i hpos =>
  ⟨abs_exactEntry_le n os i, fun h => (abs_exactEntry_le n os i).trans (average_volumes_le_one hpos h)⟩

/-! One overtone (R95, R98) -/

theorem value_one32 : value one32 = 1 := by decide +kernel

theorem value_posZero : value posZero = 0 := value_eq_zero_of_mag (by decide)

theorem value_negate (w : Word) : value (negate w) = -value w := by
  rw [value, value, units_negate, Int.cast_neg, neg_div]

/-- With one overtone there is nothing to average. -/
theorem exactEntry_of_single {os : OvertoneSet} {o : Overtone} (h : presentOvertones os = [o]) (n i : Nat) :
    exactEntry n os i = Real.sin (2 * Real.pi * i * (value o.ratio : Real) / n) * (value o.volume : Real) := by
  simp [exactEntry, overtoneCount, h]

theorem exactEntry_of_fundamental {os : OvertoneSet} (h : presentOvertones os = [⟨one32, one32⟩]) (n i : Nat) :
    exactEntry n os i = Real.sin (2 * Real.pi * i / n) := by
  simp [exactEntry_of_single h, value_one32]

/-- A negated ratio negates the entry: the sine is odd (R95). -/
theorem exactEntry_of_negated_ratio {os os' : OvertoneSet} {r v : Word} (h : presentOvertones os = [⟨r, v⟩])
    (h' : presentOvertones os' = [⟨negate r, v⟩]) (n i : Nat) : exactEntry n os' i = -exactEntry n os i := by
  rw [exactEntry_of_single h, exactEntry_of_single h', value_negate, Rat.cast_neg, mul_neg, neg_div, Real.sin_neg,
    neg_mul]

/-- Settles O56: each case reads the single sine of `exactEntry_of_single`. -/
theorem singleOvertoneEntries : Obligations.SingleOvertoneEntries := by
  refine fun n os i => ⟨fun h => exactEntry_of_fundamental h n i, fun tol table h happrox => ?_, fun v h => ?_,
    fun os' r v h h' => exactEntry_of_negated_ratio h h' n i⟩
  · obtain ⟨hlen, hnear⟩ := happrox
    have hcount : overtoneCount os ≠ 0 := by simp [overtoneCount, h]
    refine ⟨hlen, fun v hv => ?_⟩
    have hentry := hnear i v hv
    rw [if_neg hcount, exactEntry_of_fundamental h] at hentry
    exact hentry.2
  · simp [exactEntry_of_single h, value_posZero]

end Sys2Proof.Machine
end

section
/-! PROOFS of 41_wavetable_rom: WRT, and the WRTs of an LDTAB one after another. -/

namespace Sys2Proof.Machine

/-! WRT (R111) -/

theorem execWrt_of_lt {s : State} {idx : Index} (data : Word) (hidx : idx.toNat < s.cfg.tableSize) :
    execWrt idx data s =
      .next (State.respond { s with table := Memory.write s.cfg idx.toNat data s.table } .ok 0) := by
  rw [execWrt_eq, if_neg (not_le.2 hidx)]

theorem execWrt_of_le {s : State} {idx : Index} (data : Word) (hidx : s.cfg.tableSize ≤ idx.toNat) :
    execWrt idx data s = .next (s.raise (.badIndex idx)) := by
  rw [execWrt_eq, if_pos hidx]

/-- In a canonical table, to write what the entry reads as leaves the very list (log 2): both read alike. -/
theorem Memory.write_read (c : Config) {m : Memory} {i : Nat} (hm : Memory.wf c m = true) (hi : i < c.tableSize) :
    Memory.write c i (Memory.read c m i) m = m := by
  refine Memory.wf_ext c (Memory.wf_write c _ hm hi) hm fun j _ => ?_
  by_cases hj : j = i
  · rw [hj, Memory.read_write_same c hm]
  · exact Memory.read_write_other c _ m hj

/-- Settles O22: the word by its fields, and WRT by its two cases; in range, its table is `Memory.write`'s. -/
theorem wrtWritesOneEntry : Obligations.WrtWritesOneEntry := by
  refine ⟨fun idx data => Laws.fields_packFields 0b011#3 0 idx data, fun w _ hrsv => ⟨_, decode_reservedField hrsv⟩,
    decode_eq_ok_iff.2 (by decide), fun s idx data hwf => ⟨fun hidx => ?inside, execWrt_of_le data⟩⟩
  case inside =>
    obtain ⟨hsame, hother⟩ := memRead_of_table_write (s := s)
      (t := State.respond { s with table := Memory.write s.cfg idx.toNat data s.table } .ok 0) rfl rfl hwf hidx
    refine ⟨_, execWrt_of_lt data hidx, rfl, hsame, hother, fun hheld => ?_⟩
    rw [memRead_of_lt hidx, Except.ok.injEq] at hheld
    rw [respond_table, ← hheld]
    exact Memory.write_read s.cfg hwf hidx

/-! LDTAB (R72, R112) -/

/-- The table after the words `vs` have been written from entry `i` on, in index order. -/
def Memory.writeFrom (c : Config) : Nat → List Word → Memory → Memory
  | _, [], m => m
  | i, v :: vs, m => Memory.writeFrom c (i + 1) vs (Memory.write c i v m)

theorem Memory.read_writeFrom_of_lt (c : Config) {i j : Nat} (vs : List Word) (m : Memory) (hj : j < i) :
    Memory.read c (Memory.writeFrom c i vs m) j = Memory.read c m j := by
  induction vs generalizing i m with
  | nil => rfl
  | cons v vs ih => rw [Memory.writeFrom, ih _ (by omega), Memory.read_write_other c v m (by omega)]

/-- Each entry written reads as its word: the later writes are to higher entries. -/
theorem Memory.read_writeFrom (c : Config) {i j : Nat} {vs : List Word} {m : Memory} {v : Word}
    (hm : Memory.wf c m = true) (hlen : i + vs.length ≤ c.tableSize) (hv : vs[j]? = some v) :
    Memory.read c (Memory.writeFrom c i vs m) (i + j) = v := by
  induction vs generalizing i j m with
  | nil => cases hv
  | cons u us ih =>
    rw [List.length_cons] at hlen
    cases j with
    | zero =>
      cases hv
      rw [Memory.writeFrom, Memory.read_writeFrom_of_lt c us _ (by omega)]
      exact Memory.read_write_same c hm i _
    | succ j =>
      rw [Memory.writeFrom, show i + (j + 1) = i + 1 + j by omega]
      exact ih (Memory.wf_write c u hm (by omega)) (by omega) hv

theorem run_succ_of_step (M : Host.Core) {s t : M.State} (k : Nat) (h : M.step s = .next t) :
    M.run (k + 1) s = M.run k t := by
  rw [Host.Core.run, h]

/-- The step at an edge that presents an in-range WRT and takes no response. -/
theorem step_of_wrt {s : State} {idx : Index} {data : Word} {rest : List PortEdge} (hl : s.cfg.legal = true)
    (hi : s.inputs = commandEdge (encode (.wrt idx data)) :: rest) (hidx : idx.toNat < s.cfg.tableSize) :
    step s = .next (State.respond
      { s with inputs := rest, table := Memory.write s.cfg idx.toNat data s.table } .ok 0) := by
  rw [step_of_command hl hi, runCommand_of_ok (decode_encode _)]
  exact execWrt_of_lt (s := { s with inputs := rest }) data hidx

/-- The run of LDTAB's WRTs from entry `i` on. That `N ≤ 65536` keeps each index in its 16-bit field. -/
theorem run_ldtabFrom {s : State} {i : Nat} {vs : List Word} {rest : List PortEdge} (hl : s.cfg.legal = true)
    (hlen : i + vs.length ≤ s.cfg.tableSize) (hi : s.inputs = commandEdges (ldtabFrom i vs) ++ rest) :
    Host.Core.run core vs.length s = .next
      { s with
        table := Memory.writeFrom s.cfg i vs s.table
        inputs := rest
        responses := s.responses ++ List.replicate vs.length ⟨.ok, 0⟩ } := by
  induction vs generalizing s i with
  | nil =>
    obtain rfl : s.inputs = rest := hi
    rw [List.length_nil, List.replicate_zero, List.append_nil]
    rfl
  | cons v vs ih =>
    rw [List.length_cons] at hlen
    have hidx : (BitVec.ofNat 16 i).toNat = i :=
      Nat.mod_eq_of_lt (by have := (legalSize_of_legal hl).2; omega)
    have hstep := step_of_wrt (rest := commandEdges (ldtabFrom (i + 1) vs) ++ rest) hl hi (by omega)
    rw [hidx] at hstep
    have hlen' : i + 1 + vs.length ≤ s.cfg.tableSize := by omega
    rw [List.length_cons, List.replicate_succ, List.append_cons]
    exact (run_succ_of_step core vs.length hstep).trans (ih hl hlen' rfl)

/-- Settles O26: the run's table is the words written from entry 0 on, and every entry is among them. -/
theorem ldtabReplacesTheTable : Obligations.LdtabReplacesTheTable := by
  intro s vs rest hl hwf hlen hi
  have hfits : 0 + vs.length ≤ s.cfg.tableSize := by omega
  rw [← hlen]
  refine ⟨_, run_ldtabFrom hl hfits hi, fun j v hv => ?_, rfl, rfl, rfl, rfl⟩
  have hj : j < s.cfg.tableSize := hlen ▸ (List.getElem?_eq_some_iff.1 hv).1
  have hread := Memory.read_writeFrom s.cfg hwf hfits hv
  rw [Nat.zero_add] at hread
  rw [← hread]
  exact memRead_of_lt hj

end Sys2Proof.Machine
end

section
/-! PROOFS. Values (44_float_arithmetic R190) and units: comparisons and sums of one in terms of the other, and which
sums of finite patterns are finite or exact (R192, R193). -/

namespace Sys2Proof.Machine

/-! Values -/

theorem unitsPerOne_pos_rat : (0 : Rat) < unitsPerOne := Nat.cast_pos.2 unitsPerOne_pos

theorem value_of_pos {w : Word} (h : signBit w = false) : value w = mag w / unitsPerOne := by
  rw [value, units_of_pos h, Int.cast_natCast]

theorem abs_value (w : Word) : |value w| = mag w / unitsPerOne := by
  rw [value, abs_div, abs_of_pos unitsPerOne_pos_rat, ← natAbs_units, Nat.cast_natAbs, Int.cast_abs]

theorem value_inj {v w : Word} : value v = value w ↔ units v = units w := by
  rw [value, value, div_left_inj' unitsPerOne_pos_rat.ne', Int.cast_inj]

theorem value_eq_zero_iff {w : Word} : value w = 0 ↔ units w = 0 := by
  rw [value, div_eq_zero_iff, or_iff_left unitsPerOne_pos_rat.ne', Int.cast_eq_zero]

theorem value_nonneg_iff {w : Word} : 0 ≤ value w ↔ 0 ≤ units w := by
  rw [value, le_div_iff₀ unitsPerOne_pos_rat, zero_mul, Int.cast_nonneg_iff]

theorem value_add (a b : Word) : value a + value b = ((units a + units b : Int) : Rat) / unitsPerOne := by
  rw [value, value, ← add_div, Int.cast_add]

theorem value_eq_add_iff {a b w : Word} : value w = value a + value b ↔ units w = units a + units b := by
  rw [value_add, value, div_left_inj' unitsPerOne_pos_rat.ne', Int.cast_inj]

/-- A value that is not negative is its magnitude, `−0` among them. -/
theorem units_of_nonneg {w : Word} (h : 0 ≤ units w) : units w = mag w := by
  rw [← natAbs_units, Int.natAbs_of_nonneg h]

/-- Finite patterns of one sign and magnitude are the same. -/
theorem word_eq_of_mag_eq {v w : Word} (hs : signBit v = signBit w) (hm : mag v = mag w) : v = w :=
  word_ext hs (patMag_inj.1 (by rwa [← mag_eq_patMag, ← mag_eq_patMag]))

theorem mag_posZero : mag posZero = 0 := by decide

theorem eq_posZero_of_value {w : Word} (hs : signBit w = false) (h : value w = 0) : w = posZero := by
  rw [value_eq_zero_iff, units_eq_zero] at h
  rw [eq_zero_of_isZero h, hs, if_neg Bool.false_ne_true]

/-! Rounded numbers of units -/

theorem isFinite_roundUnits_iff {x : Int} :
    isFinite (roundUnits x) = true ↔ (x.natAbs : Rat) / unitsPerOne < overflowThreshold := by
  rw [roundUnits, isFinite_round32_iff _ _ one_pos, Nat.cast_one, one_mul]

theorem roundsTo_roundUnits {x : Int} (h : x ≠ 0) : RoundsTo ((x : Rat) / unitsPerOne) (roundUnits x) := by
  have hx := roundsTo_round32 (decide (x < 0)) (Int.natAbs_pos.2 h) one_pos
  have hsign : (if decide (x < 0) = true then -1 else 1) * |(x : Rat)| = x := by
    rcases lt_or_gt_of_ne h with hneg | hpos
    · simp [hneg, abs_of_neg]
    · simp [hpos.le, not_lt.2 hpos.le]
  rwa [Nat.cast_one, one_mul, Nat.cast_natAbs, Int.cast_abs, mul_div_assoc', hsign] at hx

theorem units_roundUnits_of_exact {x : Int} {c j : Nat} (hx : x.natAbs = c * 2 ^ j) (hc : c < 2 ^ 24) (hj : j ≤ 253) :
    units (roundUnits x) = x := by
  have hm : mag (roundUnits x) = x.natAbs := by rw [roundUnits, mag_round32, hx, patMag_roundMag_exact hc hj]
  rw [units, hm, roundUnits, signBit_round32]
  split_ifs with h <;> rw [decide_eq_true_iff] at h <;> omega

/-! Sums -/

/-- A sum of at most 24 significant digits is exact (R193). -/
theorem units_fadd32_of_exact {a b : Word} {c j : Nat} (ha : isFinite a = true) (hb : isFinite b = true)
    (hx : (units a + units b).natAbs = c * 2 ^ j) (hc : c < 2 ^ 24) (hj : j ≤ 253) :
    units (fadd32 a b) = units a + units b := by
  rw [fadd32_of_finite ha hb]
  split_ifs with h0 hz
  · exact (show units negZero = 0 by decide).trans h0.symm
  · exact units_posZero.trans h0.symm
  · exact units_roundUnits_of_exact hx hc hj

theorem isFinite_fadd32 {a b : Word} (ha : isFinite a = true) (hb : isFinite b = true)
    (h : |value a + value b| < overflowThreshold) : isFinite (fadd32 a b) = true := by
  rw [fadd32_of_finite ha hb]
  split_ifs
  · decide
  · decide
  · rw [isFinite_roundUnits_iff, Nat.cast_natAbs, Int.cast_abs]
    rwa [value_add, abs_div, abs_of_pos unitsPerOne_pos_rat] at h

/-- The largest finite value (R190). -/
theorem abs_value_le_of_isFinite {w : Word} (h : isFinite w = true) : |value w| ≤ 2 ^ 128 - 2 ^ 104 := by
  have hm : mag w ≤ patMag 0x7F7FFFFF := by
    rw [isFinite_iff] at h
    rw [mag_eq_patMag, patMag_le]
    omega
  have hmax : (patMag 0x7F7FFFFF : Rat) = (2 ^ 128 - 2 ^ 104) * unitsPerOne := by
    norm_num [patMag, magOf, unitsPerOne]
  rw [abs_value, div_le_iff₀ unitsPerOne_pos_rat, ← hmax]
  exact_mod_cast hm

end Sys2Proof.Machine
end

section
/-! PROOFS of 42_phase_accumulator section 2: SETF and the increment it computes. -/

namespace Sys2Proof.Machine

/-! SETF (R131) -/

/-- Settles O27: the word by its fields, the rule's example by evaluation, and SETF by its definition. -/
theorem setfSetsTheIncrement : Obligations.SetfSetsTheIncrement := by
  refine ⟨fun hz => Laws.fields_packFields 0b010#3 0 0 hz, fun w hop hused => ?_, by decide, fun s hz => rfl⟩
  by_cases hrsv : rsvField w = 0
  · exact ⟨_, decode_setfIndex hrsv hop (hused.resolve_left (not_not.2 hrsv))⟩
  · exact ⟨_, decode_reservedField hrsv⟩

/-! The divisor `SRf` (R8, R201) -/

@[simp] theorem signBit_SRf (rate : BitVec 32) : signBit (SRf rate) = false := signBit_roundUnits_nat _

theorem isFinite_SRf (rate : BitVec 32) : isFinite (SRf rate) = true := by
  have hlt := rate.isLt
  rw [SRf, u32ToF32, isFinite_roundUnits_iff, Int.natAbs_natCast, Nat.cast_mul,
    mul_div_cancel_right₀ _ unitsPerOne_pos_rat.ne']
  exact (Nat.cast_lt.2 hlt).trans (by norm_num [overflowThreshold])

theorem isZero_SRf {rate : BitVec 32} (h : rate ≠ 0) : isZero (SRf rate) = false := by
  have hpos : 1 ≤ rate.toNat := Nat.one_le_iff_ne_zero.2 fun h0 => h (BitVec.eq_of_toNat_eq h0)
  have hone : roundMag unitsPerOne 1 = 0x3F800000 := by decide
  have hle : roundMag unitsPerOne 1 ≤ roundMag (rate.toNat * unitsPerOne) 1 :=
    roundMag_mono one_pos one_pos (by simpa using Nat.le_mul_of_pos_left unitsPerOne hpos)
  rw [← Bool.not_eq_true, isZero_iff, SRf, u32ToF32, roundUnits, lowBits_round32, Int.natAbs_natCast]
  omega

/-! Special frequencies (R133): how a product and a quotient carry the sign, zeros and infinities of the left operand
when the right one is finite and no zero. -/

section
variable {a b : Word}

theorem withSign_inf (neg : Bool) : withSign neg 0x7F800000 = if neg then negInf else posInf := by cases neg <;> rfl

theorem isNaN_of_isInf {w : Word} (h : isInf w = true) : isNaN w = false := by
  rw [isInf_iff] at h
  rw [← Bool.not_eq_true, isNaN_iff]
  omega

theorem isZero_of_isInf {w : Word} (h : isInf w = true) : isZero w = false := by
  rw [isInf_iff] at h
  rw [← Bool.not_eq_true, isZero_iff]
  omega

theorem fmul32_of_isZero (ha : isZero a = true) (hb : isFinite b = true) :
    fmul32 a b = withSign (signBit a ^^ signBit b) 0 := by
  rw [fmul32_of_finite (isFinite_of_isZero ha) hb, ha, Bool.true_or, if_pos rfl]

theorem fmul32_of_nonzero (ha : isFinite a = true) (hza : isZero a = false) (hb : isFinite b = true)
    (hzb : isZero b = false) : fmul32 a b = round32 (signBit a ^^ signBit b) (mag a * mag b) unitsPerOne := by
  rw [fmul32_of_finite ha hb, hza, hzb, Bool.or_self, if_neg Bool.false_ne_true]

theorem fmul32_of_isInf (ha : isInf a = true) (hb : isFinite b = true) (hzb : isZero b = false) :
    fmul32 a b = withSign (signBit a ^^ signBit b) 0x7F800000 := by
  simp [fmul32, ha, isNaN_of_isInf ha, isZero_of_isInf ha, hzb, isNaN_of_isFinite hb]

theorem fdiv32_of_isZero (ha : isZero a = true) (hb : isFinite b = true) (hzb : isZero b = false) :
    fdiv32 a b = withSign (signBit a ^^ signBit b) 0 := by
  rw [fdiv32_of_finite (isFinite_of_isZero ha) hb hzb, ha, if_pos rfl]

theorem fdiv32_of_nonzero (ha : isFinite a = true) (hza : isZero a = false) (hb : isFinite b = true)
    (hzb : isZero b = false) : fdiv32 a b = round32 (signBit a ^^ signBit b) (mag a * unitsPerOne) (mag b) := by
  rw [fdiv32_of_finite ha hb hzb, hza, if_neg Bool.false_ne_true]

theorem fdiv32_of_isInf (ha : isInf a = true) (hb : isFinite b = true) :
    fdiv32 a b = withSign (signBit a ^^ signBit b) 0x7F800000 := by
  simp [fdiv32, ha, isNaN_of_isInf ha, isZero_of_isInf ha, isNaN_of_isFinite hb, isInf_of_isFinite hb]

/-- A product by a finite number other than zero is no NaN when the left operand is none, and has the sign of R194. -/
theorem fmul32_sign (ha : isNaN a = false) (hb : isFinite b = true) (hzb : isZero b = false) :
    isNaN (fmul32 a b) = false ∧ signBit (fmul32 a b) = (signBit a ^^ signBit b) := by
  by_cases hza : isZero a = true
  · rw [fmul32_of_isZero hza hb]
    exact ⟨isNaN_withSign_zero _, signBit_withSign _ (by decide)⟩
  by_cases hia : isInf a = true
  · rw [fmul32_of_isInf hia hb hzb]
    exact ⟨isNaN_withSign_inf _, signBit_withSign _ (by decide)⟩
  · rw [fmul32_of_nonzero (isFinite_of_not ha (by simpa using hia)) (by simpa using hza) hb hzb]
    exact ⟨isNaN_round32 _ _ _, signBit_round32 _ _ _⟩

/-- So is a quotient (R195). -/
theorem fdiv32_sign (ha : isNaN a = false) (hb : isFinite b = true) (hzb : isZero b = false) :
    isNaN (fdiv32 a b) = false ∧ signBit (fdiv32 a b) = (signBit a ^^ signBit b) := by
  by_cases hza : isZero a = true
  · rw [fdiv32_of_isZero hza hb hzb]
    exact ⟨isNaN_withSign_zero _, signBit_withSign _ (by decide)⟩
  by_cases hia : isInf a = true
  · rw [fdiv32_of_isInf hia hb]
    exact ⟨isNaN_withSign_inf _, signBit_withSign _ (by decide)⟩
  · rw [fdiv32_of_nonzero (isFinite_of_not ha (by simpa using hia)) (by simpa using hza) hb hzb]
    exact ⟨isNaN_round32 _ _ _, signBit_round32 _ _ _⟩

/-- A product that reaches the threshold of R192 overflows. -/
theorem isInf_fmul32_of_overflow (ha : isFinite a = true) (hb : isFinite b = true)
    (h : overflowThreshold ≤ |value a * value b|) : isInf (fmul32 a b) = true := by
  have hne : value a * value b ≠ 0 := fun h0 => by
    rw [h0, abs_zero] at h
    exact absurd h (by norm_num [overflowThreshold])
  have hz {w : Word} (hw : value w ≠ 0) : isZero w = false := by
    rwa [Ne, value_eq_zero_iff, units_eq_zero, Bool.not_eq_true] at hw
  rw [fmul32_of_nonzero ha (hz (left_ne_zero_of_mul hne)) hb (hz (right_ne_zero_of_mul hne)), isInf_round32,
    Bool.not_eq_true', ← Bool.not_eq_true, isFinite_round32_iff _ _ unitsPerOne_pos, not_lt]
  rwa [abs_mul, abs_value, abs_value, div_mul_div_comm, ← Nat.cast_mul] at h

end

section
variable {n : Nat} {rate : BitVec 32} {hz : Word}

theorem increment_of_isZero (hn : legalSize n) (hrate : rate ≠ 0) (h : isZero hz = true) :
    increment n rate hz = withSign (signBit hz) 0 := by
  have hzero : isZero (withSign (signBit hz) 0) = true := by cases signBit hz <;> decide
  rw [increment, fmul32_of_isZero h (isFinite_Nf hn), signBit_Nf, Bool.xor_false,
    fdiv32_of_isZero hzero (isFinite_SRf rate) (isZero_SRf hrate), signBit_withSign _ (by decide), signBit_SRf,
    Bool.xor_false]

theorem increment_of_isNaN (h : isNaN hz = true) : increment n rate hz = cNaN := by
  rw [increment, fmul32_nan (.inl h), fdiv32_nan (.inl isNaN_cNaN)]

theorem signBit_increment (hn : legalSize n) (hrate : rate ≠ 0) (h : isNaN hz = false) :
    signBit (increment n rate hz) = signBit hz := by
  obtain ⟨hnan, hsign⟩ := fmul32_sign h (isFinite_Nf hn) (isZero_Nf hn)
  rw [increment, (fdiv32_sign hnan (isFinite_SRf rate) (isZero_SRf hrate)).2, hsign, signBit_Nf, signBit_SRf,
    Bool.xor_false, Bool.xor_false]

/-- An infinite product, of an infinite frequency or by overflow, leaves an infinity of the sign of `hz`. -/
theorem increment_of_isInf_product (hn : legalSize n) (hnan : isNaN hz = false)
    (h : isInf (fmul32 hz (Nf n)) = true) : increment n rate hz = if signBit hz then negInf else posInf := by
  rw [increment, fdiv32_of_isInf h (isFinite_SRf rate), (fmul32_sign hnan (isFinite_Nf hn) (isZero_Nf hn)).2,
    signBit_Nf, signBit_SRf, Bool.xor_false, Bool.xor_false, withSign_inf]

theorem increment_of_isInf (hn : legalSize n) (h : isInf hz = true) :
    increment n rate hz = if signBit hz then negInf else posInf := by
  refine increment_of_isInf_product hn (isNaN_of_isInf h) ?_
  rw [fmul32_of_isInf h (isFinite_Nf hn) (isZero_Nf hn)]
  cases signBit hz ^^ signBit (Nf n) <;> decide

end

theorem value_Nf {n : Nat} (hn : legalSize n) : value (Nf n) = n := by
  rw [value_of_pos (signBit_Nf n), mag_Nf hn, Nat.cast_mul, mul_div_cancel_right₀ _ unitsPerOne_pos_rat.ne']

/-- Settles O28: each row by the kind of `hz`, or of its product with `N`. -/
theorem setfSpecialFrequencies : Obligations.SetfSpecialFrequencies := by
  intro n rate hz h1 h2 hrate
  have hn : legalSize n := ⟨h1, h2⟩
  refine ⟨?posZero, ?negZero, ?posInf, ?negInf, increment_of_isNaN, fun hf hover => ?overflow,
    signBit_increment hn hrate⟩
  case posZero => rintro rfl; exact increment_of_isZero hn hrate (by decide)
  case negZero => rintro rfl; exact increment_of_isZero hn hrate (by decide)
  case posInf => rintro rfl; exact increment_of_isInf hn (by decide)
  case negInf => rintro rfl; exact increment_of_isInf hn (by decide)
  case overflow =>
    rw [← value_Nf hn] at hover
    exact increment_of_isInf_product hn (isNaN_of_isFinite hf) (isInf_fmul32_of_overflow hf (isFinite_Nf hn) hover)

/-! Twice the frequency (R132) -/

theorem excessBits_of_half {q : Nat} (h : 2 ^ 23 ≤ q / 2) : excessBits q = excessBits (q / 2) + 1 := by
  have hlog : 23 ≤ Nat.log2 (q / 2) := (Nat.le_log2 (by omega)).2 h
  rw [excessBits, excessBits, Nat.log2_def, if_pos (by omega)]
  omega

theorem roundQuotient_two_mul (num : Nat) {den : Nat} (hd : 0 < den) :
    roundQuotient (2 * num) (2 * den) = roundQuotient num den := by
  refine eq_of_forall_ge_iff fun t => ?_
  rw [roundQuotient_le_iff _ (by omega), roundQuotient_le_iff _ hd, Nat.mul_left_comm (2 * t + 1) 2 den]
  omega

/-- Above the subnormal range, twice the number rounds to the pattern one exponent up. -/
theorem roundMag_two_mul {num den : Nat} (hd : 0 < den) (h : 2 ^ 23 ≤ num / den)
    (hf : roundMag (2 * num) den < 0x7F800000) : roundMag (2 * num) den = roundMag num den + 2 ^ 23 := by
  have hhalf : 2 * num / den / 2 = num / den := by
    rw [Nat.div_div_eq_div_mul, Nat.mul_comm den 2, Nat.mul_div_mul_left _ _ two_pos]
  have hk : excessBits (2 * num / den) = excessBits (num / den) + 1 := by
    rw [excessBits_of_half (hhalf ▸ h), hhalf]
  have hden : den * 2 ^ (excessBits (num / den) + 1) = 2 * (den * 2 ^ excessBits (num / den)) := by
    rw [pow_succ]
    ring
  simp only [roundMag, hk, hden] at hf ⊢
  rw [roundQuotient_two_mul num (by positivity)] at hf ⊢
  omega

/-- A result above the smallest normal exponent comes from a number above the subnormal range. -/
theorem le_div_of_le_roundMag {num den : Nat} (hd : 0 < den) (h : 2 ^ 24 ≤ roundMag num den) : 2 ^ 23 ≤ num / den := by
  by_contra hlt
  have hnum : num < 2 ^ 23 * den := (Nat.div_lt_iff_lt_mul hd).1 (not_le.1 hlt)
  have hle : roundMag num den ≤ roundMag (2 ^ 23) 1 := roundMag_mono hd one_pos (by omega)
  rw [show roundMag (2 ^ 23) 1 = 2 ^ 23 by decide] at hle
  omega

theorem patMag_add_exponent {p : Nat} (h : 2 ^ 23 ≤ p) : patMag (p + 2 ^ 23) = 2 * patMag p := by
  obtain ⟨k, t, rfl, ht, hk⟩ := exists_significand p
  have ht' : 2 ^ 23 ≤ t := by omega
  rw [show k * 2 ^ 23 + t + 2 ^ 23 = (k + 1) * 2 ^ 23 + t by ring, patMag_of_significand ht.le hk,
    patMag_of_significand ht.le (.inr ht'), pow_succ]
  ring

theorem units_round32_two_mul {neg : Bool} {num den : Nat} (hd : 0 < den)
    (he : 2 ≤ expField (round32 neg num den)) (hf : isFinite (round32 neg (2 * num) den) = true) :
    units (round32 neg (2 * num) den) = 2 * units (round32 neg num den) := by
  rw [expField_eq, lowBits_round32] at he
  rw [isFinite_iff, lowBits_round32] at hf
  have hp : 2 ^ 24 ≤ roundMag num den := by omega
  have hm : mag (round32 neg (2 * num) den) = 2 * mag (round32 neg num den) := by
    rw [mag_round32, mag_round32, roundMag_two_mul hd (le_div_of_le_roundMag hd hp) hf,
      patMag_add_exponent (by omega)]
  rw [units, units, hm, signBit_round32, signBit_round32]
  cases neg <;> simp

section
variable {a a2 b : Word}

/-- Twice a value that is no zero has its sign and twice its magnitude. -/
theorem double_sign_mag (h : units a2 = 2 * units a) (hz : isZero a = false) :
    isZero a2 = false ∧ signBit a2 = signBit a ∧ mag a2 = 2 * mag a := by
  have hne : units a ≠ 0 := by rwa [Ne, units_eq_zero, Bool.not_eq_true]
  have hz2 : isZero a2 = false := by
    rw [← Bool.not_eq_true, ← units_eq_zero]
    omega
  have hneg : units a < 0 ↔ signBit a = true := by simpa [hz] using units_neg_iff a
  have hneg2 : units a2 < 0 ↔ signBit a2 = true := by simpa [hz2] using units_neg_iff a2
  refine ⟨hz2, ?_, by rw [← natAbs_units, ← natAbs_units, h, Int.natAbs_mul]; rfl⟩
  rw [Bool.eq_iff_iff, ← hneg, ← hneg2]
  omega

theorem expField_withSign_zero (neg : Bool) : expField (withSign neg 0) = 0 := by cases neg <;> decide

theorem units_fmul32_double (ha : isFinite a = true) (ha2 : isFinite a2 = true) (hb : isFinite b = true)
    (hzb : isZero b = false) (h : units a2 = 2 * units a) (he : 2 ≤ expField (fmul32 a b))
    (hf : isFinite (fmul32 a2 b) = true) : units (fmul32 a2 b) = 2 * units (fmul32 a b) := by
  have hza : isZero a = false := by
    by_contra hza
    rw [fmul32_of_isZero (by simpa using hza) hb, expField_withSign_zero] at he
    omega
  obtain ⟨hza2, hsign, hmag⟩ := double_sign_mag h hza
  rw [fmul32_of_nonzero ha2 hza2 hb hzb, hsign, hmag, Nat.mul_assoc] at hf ⊢
  rw [fmul32_of_nonzero ha hza hb hzb] at he ⊢
  exact units_round32_two_mul unitsPerOne_pos he hf

theorem units_fdiv32_double (ha : isFinite a = true) (ha2 : isFinite a2 = true) (hb : isFinite b = true)
    (hzb : isZero b = false) (h : units a2 = 2 * units a) (he : 2 ≤ expField (fdiv32 a b))
    (hf : isFinite (fdiv32 a2 b) = true) : units (fdiv32 a2 b) = 2 * units (fdiv32 a b) := by
  have hza : isZero a = false := by
    by_contra hza
    rw [fdiv32_of_isZero (by simpa using hza) hb hzb, expField_withSign_zero] at he
    omega
  have hmb : 0 < mag b := Nat.pos_of_ne_zero fun h0 => by simp [(mag_eq_zero b).1 h0] at hzb
  obtain ⟨hza2, hsign, hmag⟩ := double_sign_mag h hza
  rw [fdiv32_of_nonzero ha2 hza2 hb hzb, hsign, hmag, Nat.mul_assoc] at hf ⊢
  rw [fdiv32_of_nonzero ha hza hb hzb] at he ⊢
  exact units_round32_two_mul hmb he hf

/-- What has a finite double is finite: the magnitude of an infinity is above that of every finite pattern. -/
theorem isFinite_of_double (h : units a2 = 2 * units a) (h2 : isFinite a2 = true) : isFinite a = true := by
  have hlt := mag_lt_of_isFinite h2
  rw [← natAbs_units] at hlt
  refine isFinite_of_mag_lt ?_
  rw [← natAbs_units]
  omega

theorem value_eq_two_mul_iff : value a2 = 2 * value a ↔ units a2 = 2 * units a := by
  rw [two_mul, two_mul, value_eq_add_iff]

end

/-- Settles O29: the product and then the quotient of `f2` are twice those of `f`. -/
theorem doubledFrequencyDoublesIncrement : Obligations.DoubledFrequencyDoublesIncrement := by
  intro n rate f f2 h1 h2 hrate hf hf2 hdouble heProduct heQuotient hfProduct hfQuotient
  have hn : legalSize n := ⟨h1, h2⟩
  rw [value_eq_two_mul_iff] at hdouble ⊢
  have hproduct := units_fmul32_double hf hf2 (isFinite_Nf hn) (isZero_Nf hn) hdouble heProduct hfProduct
  exact units_fdiv32_double (isFinite_of_double hproduct hfProduct) hfProduct (isFinite_SRf rate)
    (isZero_SRf hrate) hproduct heQuotient hfQuotient

end Sys2Proof.Machine
end

section
/-! PROOFS of 42_phase_accumulator section 3: `Advance`, the phases it leaves, and the phase over many advances. -/

namespace Sys2Proof.Machine

/-- Settles O39: `legalPhase_advance`, which holds of every phase, legal or not. -/
theorem advanceReturnsLegalPhase : Obligations.AdvanceReturnsLegalPhase :=
  fun _ phase inc h1 h2 _ => legalPhase_advance ⟨h1, h2⟩ phase inc

/-! The floored modulo (R134) -/

/-- The floored modulo of a value, in units. -/
theorem sub_mul_floor_units (z : Int) (n : Nat) :
    (z : Rat) / unitsPerOne - n * ⌊(z : Rat) / unitsPerOne / n⌋ =
      ((z % (n * unitsPerOne : Nat) : Int) : Rat) / unitsPerOne := by
  have hU := unitsPerOne_pos_rat.ne'
  rw [div_div, ← Nat.cast_mul, Nat.mul_comm unitsPerOne n, Rat.floor_intCast_div_natCast, Int.emod_def]
  push_cast
  field_simp

section
variable {n : Nat} {phase inc : Word}

/-- A sum that is at least zero is reduced exactly (R134). -/
theorem value_advance_of_nonneg (hn : legalSize n) (hf : isFinite (fadd32 phase inc) = true)
    (h : 0 ≤ units (fadd32 phase inc)) :
    value (advance n phase inc) = value (fadd32 phase inc) - n * ⌊value (fadd32 phase inc) / n⌋ := by
  obtain ⟨hsign, hmag⟩ := advance_of_nonneg hn hf h
  rw [value_of_pos hsign, hmag, value, sub_mul_floor_units, units_of_nonneg h, ← Int.natCast_mod, Int.cast_natCast]

theorem roundUnits_eq_Nf_iff (hn : legalSize n) {x : Int} : roundUnits x = Nf n ↔ value (roundUnits x) = n := by
  rw [← value_Nf hn, value_inj]
  exact ⟨congrArg units, fun h => eq_of_units_eq h (isZero_Nf hn)⟩

end

/-- Settles O40: `advance_of_nonneg` and `advance_of_neg`, with their modulo in units read as one of values. -/
theorem advanceIsFlooredModulo : Obligations.AdvanceIsFlooredModulo := by
  intro n phase inc h1 h2
  have hn : legalSize n := ⟨h1, h2⟩
  refine ⟨advance_of_not_finite, fun hf h => ?nonneg, fun hf h hx => ?multiple, fun hf h hx => ?other⟩
  case nonneg =>
    rw [value_nonneg_iff] at h
    exact ⟨value_advance_of_nonneg hn hf h, (advance_of_nonneg hn hf h).1⟩
  all_goals
    rw [← not_le, value_nonneg_iff, not_le] at h
    rw [value, sub_mul_floor_units] at hx
  case multiple =>
    rw [div_eq_zero_iff, or_iff_left unitsPerOne_pos_rat.ne', Int.cast_eq_zero] at hx
    rw [advance_of_neg hn hf h, hx, show roundUnits 0 = posZero by decide, ite_self]
  case other =>
    rw [value, sub_mul_floor_units, advance_of_neg hn hf h]
    have hne : units (fadd32 phase inc) % (n * unitsPerOne : Nat) ≠ 0 := fun h0 =>
      hx (by rw [h0, Int.cast_zero, zero_div])
    exact ⟨_, roundsTo_roundUnits hne, if_congr (roundUnits_eq_Nf_iff hn) rfl rfl⟩

/-! Legal phases other than `cNaN`, and their sums with finite increments (R137, R138) -/

section
variable {n : Nat} {phase inc : Word}

/-- A legal phase other than `cNaN` as a number (R22). -/
theorem phase_of_legal (hn : legalSize n) (hp : legalPhase n phase = true) (hne : phase ≠ cNaN) :
    isFinite phase = true ∧ signBit phase = false ∧ mag phase < n * unitsPerOne :=
  ((legalPhase_iff hn phase).1 hp).resolve_left hne

theorem isFinite_of_mag_lt_size {w : Word} (hn : legalSize n) (h : mag w < n * unitsPerOne) : isFinite w = true :=
  isFinite_of_mag_lt (h.trans (Nat.mul_lt_mul_of_pos_right (hn.lt.trans (by norm_num)) unitsPerOne_pos))

/-- A phase is too small to carry a finite increment over the threshold of R192. -/
theorem isFinite_phase_sum (hn : legalSize n) (hlt : mag phase < n * unitsPerOne) (hi : isFinite inc = true) :
    isFinite (fadd32 phase inc) = true := by
  have hphase : |value phase| < 65536 := by
    rw [abs_value, div_lt_iff₀ unitsPerOne_pos_rat]
    exact_mod_cast hlt.trans_le (Nat.mul_le_mul_right _ hn.2)
  have hinc := abs_value_le_of_isFinite hi
  have hsum := abs_add_le (value phase) (value inc)
  exact isFinite_fadd32 (isFinite_of_mag_lt_size hn hlt) hi (by rw [overflowThreshold]; linarith)

theorem isNaN_advance (hn : legalSize n) (hf : isFinite (fadd32 phase inc) = true) :
    isNaN (advance n phase inc) = false := by
  by_cases h : 0 ≤ units (fadd32 phase inc)
  · obtain ⟨-, hmag⟩ := advance_of_nonneg hn hf h
    have hlt := (Nat.mod_le (mag (fadd32 phase inc)) (n * unitsPerOne)).trans_lt (mag_lt_of_isFinite hf)
    exact isNaN_of_isFinite (isFinite_of_mag_lt (hmag ▸ hlt))
  · rw [advance_of_neg hn hf (not_le.1 h)]
    split_ifs
    · exact isNaN_posZero
    · exact isNaN_roundUnits _

/-- A sum with sign bit 0 is reduced by `frem_exact` alone (R137). -/
theorem advance_eq_fremExact (hn : legalSize n) (hf : isFinite (fadd32 phase inc) = true)
    (hs : signBit (fadd32 phase inc) = false) : advance n phase inc = fremExact (fadd32 phase inc) (Nf n) := by
  obtain ⟨hsign, hmag⟩ := advance_of_nonneg hn hf (by rw [units_of_pos hs]; exact Int.natCast_nonneg _)
  apply word_eq_of_mag_eq
  · rw [hsign, signBit_fremExact, hs]
  · rw [hmag, mag_fremExact (isFinite_Nf hn) (isZero_Nf hn), mag_Nf hn]

theorem units_nonneg_of_forward (h : signBit inc = false ∨ inc = negZero) : 0 ≤ units inc := by
  obtain h | rfl := h
  · rw [units_of_pos h]
    exact Int.natCast_nonneg _
  · decide

theorem signBit_forward_sum (hf : isFinite phase = true) (hs : signBit phase = false) (hi : isFinite inc = true)
    (h : 0 ≤ units inc) : signBit (fadd32 phase inc) = false := by
  refine signBit_fadd32 hf hi ?_ fun ⟨hz, _⟩ => ?_
  · rw [units_of_pos hs]
    omega
  · rw [hz] at hs
    exact absurd hs (by decide)

end

/-- Settles O41: the sum is finite and has sign bit 0. -/
theorem forwardAdvanceIsExactRemainder : Obligations.ForwardAdvanceIsExactRemainder := by
  intro n phase inc h1 h2 hp hne hi hforward
  have hn : legalSize n := ⟨h1, h2⟩
  obtain ⟨hf, hs, hlt⟩ := phase_of_legal hn hp hne
  have hfin := isFinite_phase_sum hn hlt hi
  have hsign := signBit_forward_sum hf hs hi (units_nonneg_of_forward hforward)
  have hrem := advance_eq_fremExact hn hfin hsign
  refine ⟨hfin, ?_, hrem, fun hz => ?_⟩
  · rw [value_nonneg_iff, units_of_pos hsign]
    exact Int.natCast_nonneg _
  · have hzero : signBit negZero = false := by rw [← hz, hrem, signBit_fremExact, hsign]
    exact absurd hzero (by decide)

/-! The phase `cNaN` (R138) -/

theorem advance_cNaN (n : Nat) (inc : Word) : advance n cNaN inc = cNaN :=
  advance_of_not_finite (by rw [fadd32_nan (.inl isNaN_cNaN)]; decide)

/-- A `cNaN` phase makes the weights of R161 NaNs, and so the sample. -/
theorem sample_of_phase_cNaN {s : State} (h : s.phase = cNaN) : s.sample = cNaN := by
  have hw : fsub32 one32 cNaN = cNaN := fsub32_nan (.inr isNaN_cNaN)
  rw [State.sample, h, fracOf, fsub32_nan (.inl isNaN_cNaN), mix, hw, fmul32_nan (.inl isNaN_cNaN),
    fadd32_nan (.inl isNaN_cNaN)]

/-- A legal block's GET on `cNaN`: the answer is `cNaN`, and the phase stays. -/
theorem execGet_of_phase_cNaN {s : State} (hl : s.cfg.legal = true) (h : s.phase = cNaN) :
    execGet s = .next { s with responses := s.responses ++ [⟨.ok, cNaN⟩] } := by
  have hn := legalSize_of_legal hl
  have hp : legalPhase s.cfg.tableSize s.phase = true := (legalPhase_iff hn _).2 (.inl h)
  rw [execGet_of_legal hn hp, sample_of_phase_cNaN h, h, advance_cNaN, State.respond, ← h]

theorem isFinite_fadd32_of_not_finite {a b : Word} (ha : isFinite a = true) (hb : isInf b = true ∨ isNaN b = true) :
    isFinite (fadd32 a b) = false := by
  obtain hb | hb := hb
  · have hsum : fadd32 a b = b := by
      simp [fadd32, isNaN_of_isFinite ha, isInf_of_isFinite ha, isNaN_of_isInf hb, hb]
    rw [hsum, ← Bool.not_eq_true, isFinite_iff, (isInf_iff b).1 hb]
    decide
  · rw [fadd32_nan (.inr hb)]
    decide

/-- A number as the phase becomes `cNaN` exactly by an increment that is no finite number. -/
theorem advance_eq_cNaN_iff {n : Nat} {phase inc : Word} (hn : legalSize n) (hp : legalPhase n phase = true)
    (hne : phase ≠ cNaN) : advance n phase inc = cNaN ↔ isInf inc = true ∨ isNaN inc = true := by
  obtain ⟨hf, -, hlt⟩ := phase_of_legal hn hp hne
  constructor
  · intro h
    by_contra hc
    rw [not_or, Bool.not_eq_true, Bool.not_eq_true] at hc
    have hnan := isNaN_advance hn (isFinite_phase_sum hn hlt (isFinite_of_not hc.2 hc.1))
    rw [h, isNaN_cNaN] at hnan
    exact Bool.noConfusion hnan
  · exact fun h => advance_of_not_finite (isFinite_fadd32_of_not_finite hf h)

/-- Settles O42: GET and `Advance` on `cNaN`, and `advance_eq_cNaN_iff` on the other legal phases. -/
theorem nanPhaseIsAbsorbing : Obligations.NanPhaseIsAbsorbing := by
  refine ⟨fun s hl h => execGet_of_phase_cNaN hl h, fun s t hz h => ?_, fun n inc _ _ => advance_cNaN n inc,
    fun n phase inc h1 h2 => advance_eq_cNaN_iff ⟨h1, h2⟩⟩
  cases h
  rfl

/-! Absorption (R139) -/

/-- A number strictly inside the interval of a pattern rounds to it. -/
theorem roundMag_eq_of_between {num p : Nat} (hp0 : 0 < p) (hp : p < 0x7F800000)
    (hlo : patMag (p - 1) + patMag p < 2 * num) (hhi : 2 * num < patMag p + patMag (p + 1)) : roundMag num 1 = p := by
  have hle : roundMag num 1 ≤ p := (roundMag_le_iff num one_pos hp).2 (.inl (by omega))
  have hge : ¬roundMag num 1 ≤ p - 1 := by
    rw [roundMag_le_iff num one_pos (by omega), Nat.sub_add_cancel hp0]
    omega
  omega

/-- A sum is its left operand when the right one is below half the distance to the neighbouring pattern (R192, R193). -/
theorem fadd32_eq_left {a b : Word} (ha : isFinite a = true) (hb : isFinite b = true) (hs : signBit a = false)
    (h0 : 0 < lowBits a) (hlo : (patMag (lowBits a - 1) : Int) < mag a + 2 * units b)
    (hhi : mag a + 2 * units b < patMag (lowBits a + 1)) : fadd32 a b = a := by
  rw [mag_eq_patMag] at hlo hhi
  have hx : 0 < units a + units b := by
    rw [units_of_pos hs, mag_eq_patMag]
    have := patMag_lt_succ (lowBits a - 1)
    omega
  rw [fadd32_of_finite ha hb, if_neg hx.ne']
  rw [units_of_pos hs, mag_eq_patMag] at hx ⊢
  apply word_ext
  · rw [roundUnits, signBit_round32, hs, decide_eq_false (by omega)]
  · rw [roundUnits, lowBits_round32]
    exact roundMag_eq_of_between h0 ((isFinite_iff a).1 ha) (by omega) (by omega)

/-- The significand of a normal pattern, from the binade of its magnitude. -/
theorem exists_normal_significand {p k : Nat} (hlo : 2 ^ (k + 23) ≤ patMag p) (hhi : patMag p < 2 ^ (k + 24)) :
    ∃ t, p = k * 2 ^ 23 + t ∧ 2 ^ 23 ≤ t ∧ t < 2 ^ 24 := by
  obtain ⟨j, t, rfl, ht, hj⟩ := exists_significand p
  rw [patMag_of_significand ht.le hj] at hlo hhi
  have hkj : k ≤ j := by
    have hlt : t * 2 ^ j < 2 ^ (j + 24) := by
      rw [Nat.add_comm, pow_add]
      exact Nat.mul_lt_mul_of_pos_right ht (by positivity)
    have := (Nat.pow_lt_pow_iff_right one_lt_two).1 (hlo.trans_lt hlt)
    omega
  have hjk : j ≤ k := by
    rcases hj with rfl | hj
    · exact Nat.zero_le k
    have hle : 2 ^ (j + 23) ≤ t * 2 ^ j := by
      rw [Nat.add_comm, pow_add]
      exact Nat.mul_le_mul_right _ hj
    have := (Nat.pow_lt_pow_iff_right one_lt_two).1 (hle.trans_lt hhi)
    omega
  obtain rfl : j = k := le_antisymm hjk hkj
  refine ⟨t, rfl, ?_, ht⟩
  rw [Nat.add_comm, pow_add] at hlo
  exact Nat.le_of_mul_le_mul_right hlo (by positivity)

/-- Below a power of two the spacing is half as wide, and never less (log 17). -/
theorem two_mul_patMag_pred_le {k t : Nat} (hlo : 2 ^ 23 ≤ t) (ht : t < 2 ^ 24) :
    2 * patMag (k * 2 ^ 23 + t - 1) + 2 ^ k ≤ 2 * (t * 2 ^ k) := by
  rcases Nat.lt_or_eq_of_le hlo with h | rfl
  · have hpred := patMag_of_significand (k := k) (t := t - 1) (by omega) (.inr (by omega))
    rw [show k * 2 ^ 23 + t - 1 = k * 2 ^ 23 + (t - 1) by omega, hpred]
    obtain ⟨u, rfl⟩ : ∃ u, t = u + 1 := ⟨t - 1, by omega⟩
    rw [Nat.add_sub_cancel, Nat.add_mul]
    omega
  · cases k with
    | zero => decide
    | succ k =>
      have hpred := patMag_of_significand (k := k) (t := 2 ^ 24 - 1) (by omega) (.inr (by decide))
      rw [show (k + 1) * 2 ^ 23 + 2 ^ 23 - 1 = k * 2 ^ 23 + (2 ^ 24 - 1) by omega, hpred, pow_succ]
      omega

/-- R139 in units: `2^k` is the spacing at `a`. -/
theorem fadd32_absorbs {a b : Word} {k : Nat} (ha : isFinite a = true) (hb : isFinite b = true) (hs : signBit a = false)
    (hlo : 2 ^ (k + 23) ≤ mag a) (hhi : mag a < 2 ^ (k + 24)) (hsmall : 2 * mag b < 2 ^ k)
    (h : 0 ≤ units b ∨ 2 ^ (k + 23) < mag a ∨ 4 * mag b < 2 ^ k) : fadd32 a b = a := by
  have hb' := natAbs_units b
  have hm := mag_eq_patMag a
  obtain ⟨t, hp, ht, ht'⟩ := exists_normal_significand (hm ▸ hlo) (hm ▸ hhi)
  have hmag : mag a = t * 2 ^ k := by rw [hm, hp, patMag_of_significand ht'.le (.inr ht)]
  have hsucc : patMag (lowBits a + 1) = t * 2 ^ k + 2 ^ k := by
    rw [hp, patMag_succ ht' (.inr ht), Nat.succ_mul]
  have hhalf := two_mul_patMag_pred_le (k := k) ht ht'
  rw [← hp] at hhalf
  refine fadd32_eq_left ha hb hs (by omega) ?_ (by omega)
  rcases h with h | h | h
  · omega
  · have hpred : patMag (lowBits a - 1) + 2 ^ k = t * 2 ^ k := by
      have ht1 : 2 ^ 23 < t := by
        rw [hmag, Nat.add_comm, pow_add] at h
        exact Nat.lt_of_mul_lt_mul_right h
      rw [hp, show k * 2 ^ 23 + t - 1 = k * 2 ^ 23 + (t - 1) by omega,
        patMag_of_significand (by omega) (.inr (by omega)), ← Nat.succ_mul]
      congr 1
      omega
    omega
  · omega

/-- A sum that is the phase again leaves the phase as it is. -/
theorem advance_eq_phase {n : Nat} {phase inc : Word} (hn : legalSize n) (hf : isFinite phase = true)
    (hs : signBit phase = false) (hlt : mag phase < n * unitsPerOne) (h : fadd32 phase inc = phase) :
    advance n phase inc = phase := by
  obtain ⟨hsign, hmag⟩ := advance_of_nonneg hn (h.symm ▸ hf) (by rw [h, units_of_pos hs]; exact Int.natCast_nonneg _)
  exact word_eq_of_mag_eq (hsign.trans hs.symm) (by rw [hmag, h, Nat.mod_eq_of_lt hlt])

/-- A power of two from the smallest normal one on, in units. -/
theorem two_zpow_eq_units (k : Nat) : (2 : Rat) ^ ((k : Int) - 126) = (2 ^ (k + 23) : Nat) / unitsPerOne := by
  rw [zpow_sub₀ two_ne_zero, zpow_natCast, unitsPerOne, pow_add]
  norm_num
  ring

/-- Settles O43: the hypotheses in units are those of `fadd32_absorbs`. -/
theorem smallIncrementIsAbsorbed : Obligations.SmallIncrementIsAbsorbed := by
  intro n phase inc e h1 h2 hp hne he hlo hhi hi hsmall hcase
  have hn : legalSize n := ⟨h1, h2⟩
  have hU := unitsPerOne_pos_rat
  obtain ⟨hf, hs, hlt⟩ := phase_of_legal hn hp hne
  obtain ⟨k, rfl⟩ : ∃ k : Nat, e = (k : Int) - 126 := ⟨(e + 126).toNat, by omega⟩
  have hspacing : (2 : Rat) ^ ((k : Int) - 126 - 23) = (2 ^ k : Nat) / unitsPerOne := by
    rw [zpow_sub₀ two_ne_zero, two_zpow_eq_units, pow_add]
    push_cast
    ring
  have hnext : (2 : Rat) ^ ((k : Int) - 126 + 1) = (2 ^ (k + 24) : Nat) / unitsPerOne := by
    rw [← two_zpow_eq_units (k + 1)]
    congr 1
    push_cast
    ring
  rw [value_of_pos hs, two_zpow_eq_units, div_le_div_iff_of_pos_right hU, Nat.cast_le] at hlo
  rw [value_of_pos hs, hnext, div_lt_div_iff_of_pos_right hU, Nat.cast_lt] at hhi
  rw [abs_value, hspacing, div_right_comm, div_lt_div_iff_of_pos_right hU, lt_div_iff₀ two_pos] at hsmall
  rw [abs_value, value_of_pos hs, value_nonneg_iff, hspacing, two_zpow_eq_units, div_right_comm,
    div_lt_div_iff_of_pos_right hU, div_lt_div_iff_of_pos_right hU, Nat.cast_lt, lt_div_iff₀ four_pos] at hcase
  refine advance_eq_phase hn hf hs hlt (fadd32_absorbs hf hi hs hlo hhi ?_ (hcase.imp_right (Or.imp_right fun h => ?_)))
  · rw [Nat.mul_comm]
    exact_mod_cast hsmall
  · rw [Nat.mul_comm]
    exact_mod_cast h

/-! Exact additions (R140) -/

/-- The first `m` advances from `+0` add the increment exactly. -/
def exactAdditions (n : Nat) (inc : Word) (m : Nat) : Prop :=
  ∀ i, i < m → units (fadd32 (phaseAfter n inc i) inc) = units (phaseAfter n inc i) + units inc

section
variable {n : Nat} {inc : Word}

/-- Exact additions leave the exact multiple of the increment modulo `N`, never `−0`. -/
theorem phaseAfter_of_exact (hn : legalSize n) (hi : isFinite inc = true) (h0 : 0 ≤ units inc) {m : Nat}
    (hex : exactAdditions n inc m) :
    signBit (phaseAfter n inc m) = false ∧ mag (phaseAfter n inc m) = m * mag inc % (n * unitsPerOne) := by
  induction m with
  | zero =>
    rw [phaseAfter_zero, Nat.zero_mul, Nat.zero_mod]
    exact ⟨by decide, mag_posZero⟩
  | succ m ih =>
    obtain ⟨hs, hmag⟩ := ih fun i him => hex i (by omega)
    have hlt : mag (phaseAfter n inc m) < n * unitsPerOne := hmag ▸ Nat.mod_lt _ (Nat.mul_pos hn.1 unitsPerOne_pos)
    have hsum := hex m (Nat.lt_succ_self m)
    rw [units_of_pos hs, units_of_nonneg h0] at hsum
    have hfin := isFinite_phase_sum hn hlt hi
    obtain ⟨hsign, hadv⟩ := advance_of_nonneg hn hfin (by omega)
    have hsum' : mag (fadd32 (phaseAfter n inc m) inc) = mag (phaseAfter n inc m) + mag inc := by
      rw [← natAbs_units, hsum]
      rfl
    rw [phaseAfter_succ, hadv, hsum', hmag, Nat.mod_add_mod, Nat.succ_mul]
    exact ⟨hsign, rfl⟩

theorem isFinite_phaseAfter_of_exact (hn : legalSize n) (hi : isFinite inc = true) (h0 : 0 ≤ units inc) {m : Nat}
    (hex : exactAdditions n inc m) : isFinite (phaseAfter n inc m) = true := by
  obtain ⟨-, hmag⟩ := phaseAfter_of_exact hn hi h0 hex
  exact isFinite_of_mag_lt_size hn (hmag ▸ Nat.mod_lt _ (Nat.mul_pos hn.1 unitsPerOne_pos))

/-- The general case of R140. -/
theorem value_phaseAfter_of_exact (hn : legalSize n) (hi : isFinite inc = true) (h0 : 0 ≤ units inc) {m : Nat}
    (hex : exactAdditions n inc m) :
    value (phaseAfter n inc m) = m * value inc - n * ⌊m * value inc / n⌋ := by
  obtain ⟨hs, hmag⟩ := phaseAfter_of_exact hn hi h0 hex
  have hmul : m * value inc = ((m * mag inc : Nat) : Int) / unitsPerOne := by
    rw [value, units_of_nonneg h0, mul_div_assoc', Int.cast_natCast, Int.cast_natCast, Nat.cast_mul]
  rw [value_of_pos hs, hmag, hmul, sub_mul_floor_units, ← Int.natCast_mod, Int.cast_natCast]

/-- An increment and a table size that are whole numbers `k` and `size` of units `2^a`, together of at most 24 digits,
are added exactly any number of times: each phase is a whole number of these units too. -/
theorem exactAdditions_of_dyadic (hn : legalSize n) (hi : isFinite inc = true) (h0 : 0 ≤ units inc) {a k size : Nat}
    (hmag : mag inc = k * 2 ^ a) (hsize : n * unitsPerOne = size * 2 ^ a) (hbound : size + k ≤ 2 ^ 24) (ha : a ≤ 253)
    (m : Nat) : exactAdditions n inc m := by
  induction m with
  | zero => exact fun i hlt => absurd hlt (Nat.not_lt_zero i)
  | succ m ih =>
    intro i hlt
    obtain hlt | rfl := Nat.lt_succ_iff_lt_or_eq.1 hlt
    · exact ih i hlt
    · obtain ⟨hs, hphase⟩ := phaseAfter_of_exact hn hi h0 ih
      rw [hmag, hsize, ← Nat.mul_assoc, Nat.mul_mod_mul_right] at hphase
      have hpos : 0 < size := Nat.pos_of_mul_pos_right (hsize ▸ Nat.mul_pos hn.1 unitsPerOne_pos)
      have hmod := Nat.mod_lt (i * k) hpos
      refine units_fadd32_of_exact (c := i * k % size + k) (j := a) (isFinite_phaseAfter_of_exact hn hi h0 ih) hi ?_
        (by omega) ha
      rw [units_of_pos hs, units_of_nonneg h0, hphase, hmag, Nat.add_mul]
      rfl

theorem phaseAfter_of_dyadic (hn : legalSize n) (hi : isFinite inc = true) (h0 : 0 ≤ units inc) {a k size : Nat}
    (hmag : mag inc = k * 2 ^ a) (hsize : n * unitsPerOne = size * 2 ^ a) (hbound : size + k ≤ 2 ^ 24) (ha : a ≤ 253)
    (m : Nat) : signBit (phaseAfter n inc m) = false ∧ mag (phaseAfter n inc m) = m * k % size * 2 ^ a := by
  obtain ⟨hs, hphase⟩ := phaseAfter_of_exact hn hi h0 (exactAdditions_of_dyadic hn hi h0 hmag hsize hbound ha m)
  rw [hmag, hsize, ← Nat.mul_assoc, Nat.mul_mod_mul_right] at hphase
  exact ⟨hs, hphase⟩

end

/-- A whole number of entries a step (R140). -/
theorem phaseAfter_idxToF32 {n k : Nat} (hn : legalSize n) (hk : k ≤ 65536) (m : Nat) :
    phaseAfter n (idxToF32 k) m = idxToF32 (m * k % n) := by
  have hsize := hn.2
  have hlt : m * k % n < n := Nat.mod_lt _ hn.1
  have h0 : 0 ≤ units (idxToF32 k) := by
    rw [units_idxToF32 (by omega)]
    exact Int.natCast_nonneg _
  obtain ⟨hs, hmag⟩ := phaseAfter_of_dyadic hn (isFinite_idxToF32 (by omega)) h0 (a := 149)
    (mag_idxToF32 (by omega)) rfl (by omega) (by decide) m
  exact word_eq_of_mag_eq (by rw [hs, signBit_idxToF32]) (hmag.trans (mag_idxToF32 (by omega)).symm)

/-- One value is `2^j` units of `2^(149-j)`. -/
theorem unitsPerOne_eq_mul {j : Nat} (hj : j ≤ 149) : unitsPerOne = 2 ^ j * 2 ^ (149 - j) := by
  rw [← pow_add, Nat.add_sub_cancel' hj, unitsPerOne]

/-- A number of units of `2^(149-j)` as a value. -/
theorem units_div_unitsPerOne {j : Nat} (hj : j ≤ 149) (c : Nat) :
    ((c * 2 ^ (149 - j) : Nat) : Rat) / unitsPerOne = c / 2 ^ j := by
  rw [unitsPerOne_eq_mul hj, Nat.cast_mul, Nat.cast_mul, mul_div_mul_right _ _ (by positivity), Nat.cast_pow,
    Nat.cast_ofNat]

/-- A dyadic fraction of an entry a step (R140). -/
theorem phaseAfter_dyadic {n k j : Nat} {inc : Word} (hn : legalSize n) (hi : isFinite inc = true)
    (hv : value inc = (k : Rat) / 2 ^ j) (hbound : n * 2 ^ j + k ≤ 2 ^ 24) (m : Nat) :
    signBit (phaseAfter n inc m) = false ∧
      value (phaseAfter n inc m) = ((m * k % (n * 2 ^ j) : Nat) : Rat) / 2 ^ j := by
  have hj : j ≤ 149 := by
    have hle : 2 ^ j ≤ 2 ^ 24 := (Nat.le_mul_of_pos_left _ hn.1).trans (by omega)
    exact ((Nat.pow_le_pow_iff_right one_lt_two).1 hle).trans (by decide)
  have h0 : 0 ≤ units inc := by
    rw [← value_nonneg_iff, hv]
    positivity
  have hmag : mag inc = k * 2 ^ (149 - j) := by
    rw [← units_div_unitsPerOne hj, value, units_of_nonneg h0, div_left_inj' unitsPerOne_pos_rat.ne'] at hv
    exact_mod_cast hv
  have hsize : n * unitsPerOne = n * 2 ^ j * 2 ^ (149 - j) := by rw [unitsPerOne_eq_mul hj, Nat.mul_assoc]
  obtain ⟨hs, hphase⟩ := phaseAfter_of_dyadic hn hi h0 hmag hsize hbound (by omega) m
  exact ⟨hs, by rw [value_of_pos hs, hphase, units_div_unitsPerOne hj]⟩

/-- Settles O44: exact additions in general, and the two kinds of increment whose additions are exact. -/
theorem exactStepsArePeriodic : Obligations.ExactStepsArePeriodic := by
  intro n h1 h2
  have hn : legalSize n := ⟨h1, h2⟩
  refine ⟨fun inc m hi h0 hex => ?exact, fun k m hk => phaseAfter_idxToF32 hn hk m,
    fun inc k j m hi hv hbound => ?dyadic⟩
  case exact =>
    rw [value_nonneg_iff] at h0
    have hex' : exactAdditions n inc m := fun i hlt => value_eq_add_iff.1 (hex i hlt)
    have hvalue := value_phaseAfter_of_exact hn hi h0 hex'
    refine ⟨hvalue, fun hzero => eq_posZero_of_value (phaseAfter_of_exact hn hi h0 hex').1 ?_⟩
    rw [hvalue, sub_eq_zero.2 hzero]
  case dyadic =>
    obtain ⟨hs, hvalue⟩ := phaseAfter_dyadic hn hi hv hbound m
    refine ⟨hvalue, fun hzero => eq_posZero_of_value hs ?_⟩
    rw [hvalue, hzero, Nat.cast_zero, zero_div]

end Sys2Proof.Machine
end

section
/-! PROOFS. What the operations of 44_float_arithmetic do with the operands of `Lerp`: zeros, infinities and NaNs on
either side, the factor 1.0, and factors and subtrahends of magnitude up to 1 (R193, R194). -/

namespace Sys2Proof.Machine

theorem mag_one32 : mag one32 = unitsPerOne := by decide

theorem isFinite_one32 : isFinite one32 = true := by decide

theorem isZero_one32 : isZero one32 = false := by decide

theorem withSign_zero (neg : Bool) : withSign neg 0 = if neg then negZero else posZero := by cases neg <;> rfl

theorem isZero_withSign_zero (neg : Bool) : isZero (withSign neg 0) = true := by cases neg <;> decide

theorem isFinite_eq_false_iff {w : Word} : isFinite w = false ↔ isInf w = true ∨ isNaN w = true := by
  rw [← Bool.not_eq_true, isFinite_iff, isInf_iff, isNaN_iff]
  omega

/-- A result that is neither finite nor a NaN but `cNaN` is an infinity or `cNaN` (R196). -/
theorem isInf_or_eq_cNaN {w : Word} (hf : isFinite w = false) (hc : canonicalNaN w = true) :
    isInf w = true ∨ w = cNaN := by
  refine (isFinite_eq_false_iff.1 hf).imp_right fun hnan => ?_
  rwa [canonicalNaN, hnan, Bool.not_true, Bool.false_or, beq_iff_eq] at hc

theorem fmul32_comm (a b : Word) : fmul32 a b = fmul32 b a := by
  have hzi : (isZero a && isInf b || isInf a && isZero b) = (isZero b && isInf a || isInf b && isZero a) := by
    rw [Bool.or_comm, Bool.and_comm (isInf a), Bool.and_comm (isZero a)]
  simp only [fmul32, hzi, Bool.xor_comm (signBit a), Bool.or_comm (isNaN a), Bool.or_comm (isInf a),
    Bool.or_comm (isZero a), Nat.mul_comm (mag a)]

/-! Zeros and the factor 1.0 -/

theorem fmul32_one_left {w : Word} (h : isNaN w = false) : fmul32 one32 w = w := by
  have hsign : (signBit w ^^ signBit one32) = signBit w := by
    rw [show signBit one32 = false by decide, Bool.xor_false]
  rw [fmul32_comm]
  by_cases hz : isZero w = true
  · rw [fmul32_of_isZero hz isFinite_one32, hsign, withSign_zero, ← eq_zero_of_isZero hz]
  by_cases hi : isInf w = true
  · rw [fmul32_of_isInf hi isFinite_one32 isZero_one32, hsign, withSign_inf, ← eq_inf_of_isInf hi]
  rw [Bool.not_eq_true] at hz hi
  have hf := isFinite_of_not h hi
  rw [fmul32_of_nonzero hf hz isFinite_one32 isZero_one32, hsign, mag_one32]
  apply word_ext
  · rw [signBit_round32]
  · rw [lowBits_round32, mag_eq_patMag, roundMag_exact unitsPerOne_pos ((isFinite_iff w).1 hf).le]

theorem fmul32_posZero_left {w : Word} (h : isFinite w = true) :
    fmul32 posZero w = if signBit w then negZero else posZero := by
  rw [fmul32_of_isZero (by decide) h, show signBit posZero = false by decide, Bool.false_xor, withSign_zero]

theorem fmul32_posZero_of_not_finite {w : Word} (h : isFinite w = false) : fmul32 posZero w = cNaN := by
  obtain hi | hnan := isFinite_eq_false_iff.1 h
  · simp [fmul32, hi, show isZero posZero = true by decide]
  · exact fmul32_nan (.inr hnan)

/-- A zero added to a number other than zero, or to an infinity, leaves it (R193). -/
theorem fadd32_of_isZero_right {a z : Word} (hnan : isNaN a = false) (hza : isZero a = false) (hz : isZero z = true) :
    fadd32 a z = a := by
  have hzf := isFinite_of_isZero hz
  by_cases hi : isInf a = true
  · simp [fadd32, hnan, hi, isNaN_of_isFinite hzf, isInf_of_isFinite hzf]
  · refine fadd32_exact (isFinite_of_not hnan (by simpa using hi)) hzf hnan hza ?_
    rw [(units_eq_zero z).2 hz, add_zero]

theorem fadd32_of_isZero {a b : Word} (ha : isZero a = true) (hb : isZero b = true) :
    fadd32 a b = if a = negZero ∧ b = negZero then negZero else posZero := by
  rw [fadd32_of_finite (isFinite_of_isZero ha) (isFinite_of_isZero hb), (units_eq_zero a).2 ha,
    (units_eq_zero b).2 hb, if_pos (add_zero 0)]

/-! Operands that are not finite -/

theorem isFinite_fmul32_eq_false {a b : Word} (h : isFinite a = false ∨ isFinite b = false) :
    isFinite (fmul32 a b) = false := by
  have hcNaN : isFinite cNaN = false := by decide
  by_cases hnan : isNaN a = true ∨ isNaN b = true
  · rw [fmul32_nan hnan, hcNaN]
  have hinf : (isInf a || isInf b) = true := by
    rw [isFinite_eq_false_iff, isFinite_eq_false_iff] at h
    rw [Bool.or_eq_true]
    tauto
  rw [fmul32, if_neg (by simpa using hnan), if_pos hinf]
  split_ifs
  · exact hcNaN
  · cases signBit a ^^ signBit b <;> decide

theorem isFinite_fadd32_eq_false {a b : Word} (h : isFinite a = false ∨ isFinite b = false) :
    isFinite (fadd32 a b) = false := by
  by_cases ha : isFinite a = true
  · exact isFinite_fadd32_of_not_finite ha (isFinite_eq_false_iff.1 (h.resolve_left (by simp [ha])))
  rw [Bool.not_eq_true] at ha
  by_cases hnan : isNaN a = true ∨ isNaN b = true
  · rw [fadd32_nan hnan]
    decide
  have hinf : isInf a = true := (isFinite_eq_false_iff.1 ha).resolve_right fun h => hnan (.inl h)
  rw [fadd32, if_neg (by simpa using hnan)]
  simp only [hinf, Bool.true_and, if_true]
  split_ifs
  · exact ha
  · decide
  · exact ha

/-! Finite operands -/

theorem isNaN_fadd32_of_finite {a b : Word} (ha : isFinite a = true) (hb : isFinite b = true) :
    isNaN (fadd32 a b) = false := by
  rw [fadd32_of_finite ha hb]
  split_ifs
  · exact isNaN_negZero
  · exact isNaN_posZero
  · exact isNaN_roundUnits _

/-- A factor of magnitude at most 1 makes no finite number overflow: rounding is monotone (R192). -/
theorem isFinite_fmul32_of_mag_le {a b : Word} (ha : isFinite a = true) (hb : isFinite b = true)
    (hle : mag a ≤ unitsPerOne) : isFinite (fmul32 a b) = true := by
  have hlow := (isFinite_iff b).1 hb
  rw [fmul32_of_finite ha hb]
  split_ifs
  · exact isFinite_of_isZero (isZero_withSign_zero _)
  · have hmono : roundMag (mag a * mag b) unitsPerOne ≤ roundMag (mag b) 1 :=
      roundMag_mono unitsPerOne_pos one_pos (by rw [Nat.mul_one, Nat.mul_comm]; exact Nat.mul_le_mul_left _ hle)
    rw [mag_eq_patMag b, roundMag_exact_one hlow.le] at hmono
    rw [isFinite_iff, lowBits_round32, mag_eq_patMag b]
    omega

/-! The difference 1.0 − f -/

section
variable {f : Word}

/-- For `f` in `[0, 1)` the exact difference is a positive number of units, and it is rounded once. -/
theorem fsub32_one_eq (hs : signBit f = false) (hlt : mag f < unitsPerOne) :
    fsub32 one32 f = round32 false (unitsPerOne - mag f) 1 := by
  have hf : isFinite f = true :=
    isFinite_of_mag_lt (hlt.trans_le (Nat.le_mul_of_pos_left _ (by positivity)))
  have hx : units one32 + units (negate f) = (unitsPerOne - mag f : Nat) := by
    rw [units_negate, units_of_pos hs, units_of_pos (by decide), mag_one32, Nat.cast_sub hlt.le, sub_eq_add_neg]
  have hpos : 0 < unitsPerOne - mag f := Nat.sub_pos_of_lt hlt
  rw [fsub32, fadd32_of_finite isFinite_one32 (by rwa [isFinite_negate]), hx, if_neg (by omega), roundUnits,
    decide_eq_false (by omega), Int.natAbs_natCast]

theorem signBit_fsub32_one (hs : signBit f = false) (hlt : mag f < unitsPerOne) :
    signBit (fsub32 one32 f) = false := by
  rw [fsub32_one_eq hs hlt, signBit_round32]

theorem mag_fsub32_one_le (hs : signBit f = false) (hlt : mag f < unitsPerOne) :
    mag (fsub32 one32 f) ≤ unitsPerOne := by
  have hle : roundMag (unitsPerOne - mag f) 1 ≤ roundMag unitsPerOne 1 := roundMag_mono one_pos one_pos (by omega)
  have hone : patMag (roundMag unitsPerOne 1) = unitsPerOne := by decide
  rw [fsub32_one_eq hs hlt, mag_round32, ← hone]
  exact patMag_le.2 hle

/-- A positive number of units does not round to zero. -/
theorem mag_fsub32_one_pos (hs : signBit f = false) (hlt : mag f < unitsPerOne) : 0 < mag (fsub32 one32 f) := by
  have hle : roundMag 1 1 ≤ roundMag (unitsPerOne - mag f) 1 := roundMag_mono one_pos one_pos (by omega)
  rw [fsub32_one_eq hs hlt, mag_round32]
  exact (show 0 < patMag (roundMag 1 1) by decide).trans_le (patMag_le.2 hle)

/-- The interval of 1.0 reaches down to `1 − 2^−25`, the half way point to the pattern below: the tie goes
to 1.0, whose pattern is even (R192). -/
theorem fsub32_one_eq_one (hs : signBit f = false) (hle : mag f * 2 ^ 25 ≤ unitsPerOne) : fsub32 one32 f = one32 := by
  have hlt : mag f < unitsPerOne := by
    have := unitsPerOne_pos
    omega
  have hmid : (patMag 0x3F7FFFFF + patMag (0x3F7FFFFF + 1)) * 2 ^ 25 = (2 ^ 26 - 2) * unitsPerOne := by decide
  have hbelow : ¬roundMag (unitsPerOne - mag f) 1 ≤ 0x3F7FFFFF := by
    rw [roundMag_le_iff _ one_pos (by decide), or_iff_left fun h => absurd h.2 (by decide)]
    omega
  have habove := mag_fsub32_one_le hs hlt
  rw [← mag_one32, mag_eq_patMag, mag_eq_patMag one32, patMag_le] at habove
  apply word_ext
  · rw [signBit_fsub32_one hs hlt]
    decide
  · have hlow : lowBits one32 = 0x3F800000 := by decide
    rw [fsub32_one_eq hs hlt, lowBits_round32] at habove ⊢
    omega

end

end Sys2Proof.Machine
end

section
/-! PROOFS of 43_linear_interpolator_get section 2: the indices and the fraction of `Lerp`, and its sample. -/

namespace Sys2Proof.Machine

/-! The indices (R162) -/

/-- When `f32_to_idx` answers, and with which index (R203). -/
theorem f32ToIdx_eq_ok_iff {n : Nat} {x : Word} {base : Nat} :
    f32ToIdx n x = .ok base ↔ legalPhase n x = true ∧ base = baseIndex x := by
  by_cases h : legalPhase n x = true
  · rw [f32ToIdx_of_legal h, Except.ok.injEq, eq_comm, and_iff_right h]
  · simp [f32ToIdx, h]

theorem baseIndex_cNaN : baseIndex cNaN = 0 := if_pos isNaN_cNaN

theorem baseIndex_of_isFinite {x : Word} (hf : isFinite x = true) : baseIndex x = mag x / unitsPerOne := by
  rw [baseIndex, isNaN_of_isFinite hf, if_neg Bool.false_ne_true]

theorem floor_value {x : Word} (hs : signBit x = false) : ⌊value x⌋ = (mag x / unitsPerOne : Nat) := by
  rw [value_of_pos hs, Rat.floor_natCast_div_natCast, Int.natCast_div]

/-- A finite legal phase as a number (R22). -/
theorem phase_of_isFinite {n : Nat} {x : Word} (hn : legalSize n) (hp : legalPhase n x = true)
    (hf : isFinite x = true) : signBit x = false ∧ mag x < n * unitsPerOne := by
  have hne : x ≠ cNaN := by
    rintro rfl
    exact absurd hf (by decide)
  obtain ⟨-, hs, hlt⟩ := phase_of_legal hn hp hne
  exact ⟨hs, hlt⟩

/-- Settles O33: `baseIndex_lt` and `nextIndex_lt`; in units the floor is a quotient. -/
theorem getIndicesInsideTable : Obligations.GetIndicesInsideTable := by
  intro n x h1 h2 hp
  have hn : legalSize n := ⟨h1, h2⟩
  refine ⟨baseIndex x, f32ToIdx_of_legal hp, Nat.le_sub_one_of_lt (baseIndex_lt hn hp),
    Nat.le_sub_one_of_lt (nextIndex_lt hn _), ?_, fun hf => ?_⟩
  · rintro rfl
    exact baseIndex_cNaN
  · rw [floor_value (phase_of_isFinite hn hp hf).1, baseIndex_of_isFinite hf]

/-! The fraction (R163) -/

section
variable {n : Nat} {x : Word}

/-- The fraction of a finite legal phase is its exact remainder by 1. -/
theorem fracOf_eq_fremExact (hn : legalSize n) (hp : legalPhase n x = true) (hf : isFinite x = true) :
    fracOf x (baseIndex x) = fremExact x one32 := by
  obtain ⟨hs, -⟩ := phase_of_isFinite hn hp hf
  have hbase : baseIndex x < 2 ^ 24 := (baseIndex_lt hn hp).trans hn.lt
  have hx : units x + units (negate (idxToF32 (baseIndex x))) = (mag x % unitsPerOne : Nat) := by
    have hdm := Nat.div_add_mod' (mag x) unitsPerOne
    rw [units_negate, units_idxToF32 hbase, units_of_pos hs, baseIndex_of_isFinite hf]
    omega
  have hnegZero : x ≠ negZero := by
    rintro rfl
    exact absurd hs (by decide)
  have hrem : fremExact x one32 = roundUnits (mag x % unitsPerOne : Nat) := by
    rw [fremExact, hs, mag_one32, roundUnits, decide_eq_false (by omega), Int.natAbs_natCast]
  rw [fracOf, fsub32, fadd32_of_finite hf (by rw [isFinite_negate]; exact isFinite_idxToF32 hbase), hx, hrem]
  split_ifs with h0 hz
  · exact absurd hz.1 hnegZero
  · rw [h0]
    decide
  · rfl

theorem fracOf_of_isFinite (hn : legalSize n) (hp : legalPhase n x = true) (hf : isFinite x = true) :
    signBit (fracOf x (baseIndex x)) = false ∧ mag (fracOf x (baseIndex x)) = mag x % unitsPerOne := by
  rw [fracOf_eq_fremExact hn hp hf, signBit_fremExact, mag_fremExact isFinite_one32 isZero_one32, mag_one32]
  exact ⟨(phase_of_isFinite hn hp hf).1, rfl⟩

theorem mag_fracOf_lt (hn : legalSize n) (hp : legalPhase n x = true) (hf : isFinite x = true) :
    mag (fracOf x (baseIndex x)) < unitsPerOne := by
  rw [(fracOf_of_isFinite hn hp hf).2]
  exact Nat.mod_lt _ unitsPerOne_pos

theorem value_fracOf (hn : legalSize n) (hp : legalPhase n x = true) (hf : isFinite x = true) :
    value (fracOf x (baseIndex x)) = Int.fract (value x) := by
  obtain ⟨hs, hmag⟩ := fracOf_of_isFinite hn hp hf
  have hmod := sub_mul_floor_units (mag x) 1
  rw [Nat.cast_one, one_mul, div_one, Nat.one_mul, ← Int.natCast_mod, Int.cast_natCast, Int.cast_natCast] at hmod
  rw [value_of_pos hs, hmag, value_of_pos (phase_of_isFinite hn hp hf).1, Int.fract, hmod]

theorem fracOf_of_integer (hn : legalSize n) (hp : legalPhase n x = true) (hf : isFinite x = true)
    (h : Int.fract (value x) = 0) : fracOf x (baseIndex x) = posZero :=
  eq_posZero_of_value (fracOf_of_isFinite hn hp hf).1 ((value_fracOf hn hp hf).trans h)

theorem fracOf_of_lt_one (hn : legalSize n) (hp : legalPhase n x = true) (hf : isFinite x = true)
    (h : mag x < unitsPerOne) : fracOf x (baseIndex x) = x := by
  obtain ⟨hs, hmag⟩ := fracOf_of_isFinite hn hp hf
  exact word_eq_of_mag_eq (hs.trans (phase_of_isFinite hn hp hf).1.symm) (hmag.trans (Nat.mod_eq_of_lt h))

end

theorem fracOf_cNaN (base : Nat) : fracOf cNaN base = cNaN := fsub32_nan (.inl isNaN_cNaN)

/-- Settles O34: the fraction is the exact remainder by 1, and the weight is 1 less it, rounded once. -/
theorem fractionIsExact : Obligations.FractionIsExact := by
  intro n x base h1 h2 hbase
  have hn : legalSize n := ⟨h1, h2⟩
  have hU := unitsPerOne_pos_rat
  obtain ⟨hp, rfl⟩ := f32ToIdx_eq_ok_iff.1 hbase
  refine ⟨?nan, fun hf => ?finite⟩
  case nan =>
    rintro rfl
    exact fracOf_cNaN _
  case finite =>
    obtain ⟨hs, -⟩ := fracOf_of_isFinite hn hp hf
    have hlt := mag_fracOf_lt hn hp hf
    have hv := value_fracOf hn hp hf
    have hw := value_of_pos (signBit_fsub32_one hs hlt)
    refine ⟨hv, hv ▸ Int.fract_nonneg _, hv ▸ Int.fract_lt_one _,
      fun h => fracOf_of_integer hn hp hf (sub_eq_zero.2 h), fun h => ?below, ?pos, ?le, fun _ h => ?near⟩
    case below =>
      rw [value_of_pos (phase_of_isFinite hn hp hf).1, div_lt_one hU, Nat.cast_lt] at h
      exact ⟨by rw [baseIndex_of_isFinite hf, Nat.div_eq_of_lt h], fracOf_of_lt_one hn hp hf h⟩
    case pos =>
      rw [hw]
      exact div_pos (Nat.cast_pos.2 (mag_fsub32_one_pos hs hlt)) hU
    case le =>
      rw [hw, div_le_one hU, Nat.cast_le]
      exact mag_fsub32_one_le hs hlt
    case near =>
      rw [value_of_pos hs, div_le_div_iff₀ hU (by positivity), one_mul] at h
      exact fsub32_one_eq_one hs (by exact_mod_cast h)

/-! The sample -/

/-- When `MemRead` answers, and with which word (R42). -/
theorem memRead_eq_ok_iff {s : State} {i : Nat} {v : Word} :
    s.memRead i = .ok v ↔ i < s.cfg.tableSize ∧ v = Memory.read s.cfg s.table i := by
  by_cases hi : i < s.cfg.tableSize
  · rw [memRead_of_lt hi, Except.ok.injEq, eq_comm, and_iff_right hi]
  · simp [State.memRead, hi]

/-- When `Lerp` answers: its index exists and both entries do, and it has mixed them (R161). -/
theorem lerp_eq_ok_iff {s : State} {sample : Word} :
    s.lerp = .ok sample ↔
      ∃ base t0 t1, f32ToIdx s.cfg.tableSize s.phase = .ok base ∧ s.memRead base = .ok t0 ∧
        s.memRead (nextIndex s.cfg.tableSize base) = .ok t1 ∧ sample = mix (fracOf s.phase base) t0 t1 := by
  constructor
  · intro h
    unfold State.lerp at h
    split at h
    next => cases h
    next base hbase =>
      split at h <;> cases h
      next t0 t1 h0 h1 => exact ⟨base, t0, t1, hbase, h0, h1, rfl⟩
  · rintro ⟨base, t0, t1, hbase, h0, h1, rfl⟩
    simp only [State.lerp, hbase, h0, h1]

/-- The index and the two entries determine the sample. -/
theorem lerp_of_reads {s : State} {base : Nat} {t0 t1 : Word} (hbase : f32ToIdx s.cfg.tableSize s.phase = .ok base)
    (h0 : s.memRead base = .ok t0) (h1 : s.memRead (nextIndex s.cfg.tableSize base) = .ok t1) :
    s.lerp = .ok (mix (fracOf s.phase base) t0 t1) :=
  lerp_eq_ok_iff.2 ⟨base, t0, t1, hbase, h0, h1, rfl⟩

/-! The sample at an integer phase (R164) -/

theorem fsub32_one_posZero : fsub32 one32 posZero = one32 := by decide

theorem mix_posZero {t0 : Word} (h : isNaN t0 = false) (t1 : Word) :
    mix posZero t0 t1 = fadd32 t0 (fmul32 posZero t1) := by
  simp only [mix, fsub32_one_posZero, fmul32_one_left h]

theorem isZero_fmul32_posZero {w : Word} (h : isFinite w = true) : isZero (fmul32 posZero w) = true := by
  rw [fmul32_of_isZero (by decide) h, isZero_withSign_zero]

theorem fmul32_posZero_eq_negZero_iff {w : Word} (h : isFinite w = true) :
    fmul32 posZero w = negZero ↔ signBit w = true := by
  rw [fmul32_posZero_left h]
  cases signBit w <;> decide

/-- Settles O35: the sample is `t0` plus a zero of the sign of `t1`, unless one of the two is a NaN. -/
theorem integerPhaseSample : Obligations.IntegerPhaseSample := by
  intro t0 t1
  refine ⟨fsub32_one_posZero, fmul32_one_left, fmul32_posZero_left, fun hf h => ?nonzero, fun hf hz => ?zero,
    fun hf => ?neighbour, fun h => mix_of_isNaN_left _ h t1, fun s base hl hbase hf hv h0 h1 => ?lerp⟩
  case nonzero =>
    have hkind : isNaN t0 = false ∧ isZero t0 = false :=
      h.elim (fun ⟨hf0, hz⟩ => ⟨isNaN_of_isFinite hf0, hz⟩) fun hi => ⟨isNaN_of_isInf hi, isZero_of_isInf hi⟩
    obtain ⟨hnan, hz⟩ := hkind
    rw [mix_posZero hnan, fadd32_of_isZero_right hnan hz (isZero_fmul32_posZero hf)]
  case zero =>
    rw [mix_posZero (isNaN_of_isFinite (isFinite_of_isZero hz)), fadd32_of_isZero hz (isZero_fmul32_posZero hf)]
    simp only [fmul32_posZero_eq_negZero_iff hf]
  case neighbour =>
    simp only [mix, fmul32_posZero_of_not_finite hf, fadd32_nan (.inr isNaN_cNaN)]
  case lerp =>
    rw [lerp_of_reads hbase h0 h1]
    obtain ⟨hp, rfl⟩ := f32ToIdx_eq_ok_iff.1 hbase
    rw [fracOf_of_integer (legalSize_of_legal hl) hp hf (by rw [hv, Int.fract_natCast])]

/-! Values that are not finite (R165) -/

theorem mix_of_isNaN_right (frac t0 : Word) {t1 : Word} (h : isNaN t1 = true) : mix frac t0 t1 = cNaN := by
  simp only [mix, fmul32_nan (.inr h), fadd32_nan (.inr isNaN_cNaN)]

theorem mix_cNaN (t0 t1 : Word) : mix cNaN t0 t1 = cNaN := by
  simp only [mix, fmul32_nan (.inl isNaN_cNaN), fadd32_nan (.inr isNaN_cNaN)]

theorem isFinite_mix_eq_false (frac : Word) {t0 t1 : Word} (h : isFinite t0 = false ∨ isFinite t1 = false) :
    isFinite (mix frac t0 t1) = false :=
  isFinite_fadd32_eq_false
    (h.imp (fun h0 => isFinite_fmul32_eq_false (.inr h0)) fun h1 => isFinite_fmul32_eq_false (.inr h1))

/-- Settles O36: NaNs and infinities pass through both operations; weights of at most 1 keep both products finite. -/
theorem nonFiniteValuesPropagate : Obligations.NonFiniteValuesPropagate := by
  intro s base t0 t1 sample hl hbase h0 h1 hsample
  obtain rfl : mix (fracOf s.phase base) t0 t1 = sample :=
    Except.ok.inj ((lerp_of_reads hbase h0 h1).symm.trans hsample)
  refine ⟨fun h => ?phase, fun h => ?nan, fun h => ?inf, fun hf hf0 hf1 => ?finite⟩
  case phase => rw [h, fracOf_cNaN, mix_cNaN]
  case nan => exact h.elim (fun h => mix_of_isNaN_left _ h t1) (mix_of_isNaN_right _ t0)
  case inf =>
    refine isInf_or_eq_cNaN (isFinite_mix_eq_false _ ?_) (canonicalNaN_fadd32 _ _)
    exact h.imp (fun h => isFinite_eq_false_iff.2 (.inl h)) fun h => isFinite_eq_false_iff.2 (.inl h)
  case finite =>
    have hn := legalSize_of_legal hl
    obtain ⟨hp, rfl⟩ := f32ToIdx_eq_ok_iff.1 hbase
    obtain ⟨hs, -⟩ := fracOf_of_isFinite hn hp hf
    have hlt := mag_fracOf_lt hn hp hf
    have hle := mag_fsub32_one_le hs hlt
    have hmax : unitsPerOne < 2 ^ 128 * unitsPerOne := by decide
    have hproduct0 := isFinite_fmul32_of_mag_le (isFinite_of_mag_lt (hle.trans_lt hmax)) hf0 hle
    have hproduct1 := isFinite_fmul32_of_mag_le (isFinite_of_mag_lt (hlt.trans hmax)) hf1 hlt.le
    exact ⟨hproduct0, hproduct1, isNaN_fadd32_of_finite hproduct0 hproduct1⟩

end Sys2Proof.Machine
end

section
/-! PROOFS of 43_linear_interpolator_get section 3: GET. -/

namespace Sys2Proof.Machine

/-- Beside `execGet_next`: the GET of a state whose `Lerp` answers (R166). -/
theorem execGet_of_lerp {s : State} {sample : Word} (h : s.lerp = .ok sample) :
    execGet s =
      .next (State.respond { s with phase := advance s.cfg.tableSize s.phase s.phaseIncrement } .ok sample) := by
  rw [execGet, h]

/-- Settles O31: GET's word and the rule's example by evaluation, the decoder's tests, and GET by its two reads. -/
theorem getAnswersThenAdvances : Obligations.GetAnswersThenAdvances := by
  refine ⟨by decide, fun w hop hused => ?undecoded, by decide, fun s hl hp => ?completes⟩
  case undecoded =>
    by_cases hrsv : rsvField w = 0
    · exact ⟨_, decode_getOperand hrsv hop (hused.resolve_left (not_not.2 hrsv))⟩
    · exact ⟨_, decode_reservedField hrsv⟩
  case completes =>
    have hn := legalSize_of_legal hl
    exact ⟨baseIndex s.phase, _, _, f32ToIdx_of_legal hp, memRead_of_lt (baseIndex_lt hn hp),
      memRead_of_lt (nextIndex_lt hn _), execGet_of_legal hn hp⟩

/-! Before any SETF (R168) -/

theorem advance_posZero {n : Nat} (hn : legalSize n) : advance n posZero posZero = posZero :=
  advance_eq_phase hn (by decide) (by decide) (by rw [mag_posZero]; exact Nat.mul_pos hn.1 unitsPerOne_pos) (by decide)

/-- Settles O37: the phase `+0` selects entries 0 and `1 mod N` with weights 1.0 and `+0`, and advances to itself. -/
theorem getBeforeSetfIsConstant : Obligations.GetBeforeSetfIsConstant := by
  refine ⟨fun c => ⟨rfl, rfl⟩, fun s hl hphase hinc => ?_⟩
  have hn := legalSize_of_legal hl
  have hbase : f32ToIdx s.cfg.tableSize s.phase = .ok 0 :=
    f32ToIdx_eq_ok_iff.2 ⟨hphase ▸ legalPhase_zero hn, by rw [hphase]; decide⟩
  have h0 := memRead_of_lt (s := s) hn.1
  have h1 := memRead_of_lt (s := s) (nextIndex_lt hn 0)
  have hfrac : fracOf s.phase 0 = posZero := by rw [hphase]; decide
  refine ⟨_, _, h0, h1, ?_⟩
  rw [exec, execGet_of_lerp (lerp_of_reads hbase h0 h1), hfrac, mix, fsub32_one_posZero, hphase, hinc,
    advance_posZero hn, ← hphase, State.respond]

/-! What the sample and the new phase do not depend on (R166) -/

theorem lerp_with_phaseIncrement (s : State) (q : Word) : State.lerp { s with phaseIncrement := q } = s.lerp := rfl

/-- Whether `Lerp` answers depends on the phase and the table's size alone. -/
theorem exists_lerp_with_table {s : State} {sample : Word} (h : s.lerp = .ok sample) (m : Memory) :
    ∃ sample', State.lerp { s with table := m } = .ok sample' := by
  obtain ⟨base, t0, t1, hbase, h0, h1, -⟩ := lerp_eq_ok_iff.1 h
  exact ⟨_, lerp_of_reads (s := { s with table := m }) hbase (memRead_of_lt (memRead_eq_ok_iff.1 h0).1)
    (memRead_of_lt (memRead_eq_ok_iff.1 h1).1)⟩

/-- Settles O38: `Lerp` does not read the increment, and `Advance` is given no table. -/
theorem sampleIgnoresIncrementAndPhaseIgnoresTable : Obligations.SampleIgnoresIncrementAndPhaseIgnoresTable := by
  intro s t h
  obtain ⟨sample, hl, rfl⟩ := execGet_next h
  refine ⟨fun q => ?increment, fun m => ?table⟩
  case increment =>
    rw [← lerp_with_phaseIncrement s q] at hl
    exact ⟨_, execGet_of_lerp hl, by rw [respond_responses, respond_responses]⟩
  case table =>
    obtain ⟨sample', hl'⟩ := exists_lerp_with_table hl m
    exact ⟨_, execGet_of_lerp hl', by rw [respond_phase, respond_phase]⟩

end Sys2Proof.Machine
end

section
/-! PROOFS of 44_float_arithmetic section 2 (R192): rounding is monotone in the signed number, and the identity on
binary32 values; that it is to nearest even is `roundsTo_round32`. -/

namespace Sys2Proof.Machine

theorem units_round32 (neg : Bool) (num den : Nat) :
    units (round32 neg num den) = (if neg then -1 else 1) * (patMag (roundMag num den) : Int) := by
  rw [units, signBit_round32, mag_round32]
  cases neg <;> simp

theorem isZero_round32_zero (neg : Bool) {den : Nat} (hd : 0 < den) : isZero (round32 neg 0 den) = true := by
  rw [isZero_iff, lowBits_round32, roundMag_zero hd]

theorem round32_signBit_mag {w : Word} (h : isNaN w = false) : round32 (signBit w) (mag w) 1 = w := by
  rw [← Bool.not_eq_true, isNaN_iff, not_lt] at h
  apply word_ext
  · rw [signBit_round32]
  · rw [lowBits_round32, mag_eq_patMag, roundMag_exact_one h]

/-- `roundMag_mono` with the exact results as rational numbers. -/
theorem patMag_roundMag_mono {num den num' den' : Nat} (hd : 0 < den) (hd' : 0 < den')
    (h : (num : Rat) / den ≤ num' / den') : patMag (roundMag num den) ≤ patMag (roundMag num' den') := by
  rw [div_le_div_iff₀ (Nat.cast_pos.2 hd) (Nat.cast_pos.2 hd')] at h
  exact patMag_le.2 (roundMag_mono hd hd' (by exact_mod_cast h))

/-- Of opposite signs only zeros leave something to show: of equal signs the magnitudes are monotone. -/
theorem units_round32_mono {neg neg' : Bool} {num den num' den' : Nat} (hd : 0 < den) (hd' : 0 < den')
    (h : (if neg then -1 else 1) * ((num : Rat) / den) ≤ (if neg' then -1 else 1) * ((num' : Rat) / den')) :
    units (round32 neg num den) ≤ units (round32 neg' num' den') := by
  have hpos : (0 : Rat) ≤ num / den := by positivity
  have hpos' : (0 : Rat) ≤ num' / den' := by positivity
  rw [units_round32, units_round32]
  cases neg <;> cases neg' <;>
    simp only [Bool.false_eq_true, if_false, if_true, one_mul, neg_one_mul, neg_le_neg_iff, Nat.cast_le] at h ⊢
  case false.false => exact patMag_roundMag_mono hd hd' h
  case true.true => exact patMag_roundMag_mono hd' hd h
  case true.false => omega
  case false.true =>
    have hzero : patMag (roundMag num den) ≤ patMag (roundMag 0 1) :=
      patMag_roundMag_mono hd one_pos (by rw [Nat.cast_zero, zero_div]; linarith)
    have hzero' : patMag (roundMag num' den') ≤ patMag (roundMag 0 1) :=
      patMag_roundMag_mono hd' one_pos (by rw [Nat.cast_zero, zero_div]; linarith)
    rw [roundMag_zero one_pos, patMag_zero] at hzero hzero'
    omega

/-- Settles O45: nearness is `roundsTo_round32`, monotonicity and the identity are those of the magnitudes. -/
theorem roundingIsNearestEven : Obligations.RoundingIsNearestEven :=
  ⟨fun neg _ _ hn hd => roundsTo_round32 neg hn hd, fun neg _ hd => isZero_round32_zero neg hd,
    fun _ _ _ _ _ _ hd hd' h => units_round32_mono hd hd' h, fun _ h => round32_signBit_mag h⟩

end Sys2Proof.Machine
end

section
/-! PROOFS of 44_float_arithmetic section 3 (R193 to R196): each operation case by case, and where it gives a NaN. -/

namespace Sys2Proof.Machine

/-! Addition (R193) -/

section
variable {a b : Word}

theorem fadd32_of_isInf_both (ha : isInf a = true) (hb : isInf b = true) :
    fadd32 a b = if signBit a = signBit b then a else cNaN := by
  simp [fadd32, isNaN_of_isInf ha, isNaN_of_isInf hb, ha, hb]

theorem fadd32_of_isInf_left (ha : isInf a = true) (hb : isFinite b = true) : fadd32 a b = a := by
  simp [fadd32, isNaN_of_isInf ha, isNaN_of_isFinite hb, ha, isInf_of_isFinite hb]

theorem fadd32_of_isInf_right (ha : isFinite a = true) (hb : isInf b = true) : fadd32 a b = b := by
  simp [fadd32, isNaN_of_isFinite ha, isNaN_of_isInf hb, isInf_of_isFinite ha, hb]

theorem value_add_eq_zero_iff : value a + value b = 0 ↔ units a + units b = 0 := by
  rw [value_add, div_eq_zero_iff, or_iff_left unitsPerOne_pos_rat.ne', Int.cast_eq_zero]

theorem roundsTo_fadd32 (ha : isFinite a = true) (hb : isFinite b = true) (h : value a + value b ≠ 0) :
    RoundsTo (value a + value b) (fadd32 a b) := by
  rw [Ne, value_add_eq_zero_iff] at h
  rw [fadd32_of_finite ha hb, if_neg h, value_add]
  exact roundsTo_roundUnits h

theorem fadd32_of_sum_zero (ha : isFinite a = true) (hb : isFinite b = true) (h : value a + value b = 0) :
    fadd32 a b = if a = negZero ∧ b = negZero then negZero else posZero := by
  rw [fadd32_of_finite ha hb, if_pos (value_add_eq_zero_iff.1 h)]

/-- A number and its negation are not both `−0`. -/
theorem fadd32_negate (ha : isFinite a = true) : fadd32 a (negate a) = posZero := by
  have hboth : ¬(a = negZero ∧ negate a = negZero) := by
    rintro ⟨rfl, h⟩
    exact absurd h (by decide)
  rw [fadd32_of_finite ha (by rwa [isFinite_negate]), units_negate, if_pos (add_neg_cancel _), if_neg hboth]

end

/-- Settles O46: one lemma per case of the rule. -/
theorem additionFollowsItsRule : Obligations.AdditionFollowsItsRule := fun _ _ =>
  ⟨rfl, fadd32_nan, fadd32_of_isInf_both, fadd32_of_isInf_left, fadd32_of_isInf_right, roundsTo_fadd32,
    fadd32_of_sum_zero, fun ha => ⟨fadd32_negate ha, fadd32_negate ha⟩, fun ha hz =>
    ⟨fadd32_of_isZero_right (isNaN_of_isFinite ha) hz (by decide),
      fadd32_of_isZero_right (isNaN_of_isFinite ha) hz (by decide)⟩⟩

/-! Multiplication and division (R194, R195) -/

section
variable {a b : Word}

theorem value_eq_sign_mul (w : Word) : value w = (if signBit w then -1 else 1) * (mag w / unitsPerOne) := by
  rw [value, units]
  cases signBit w <;> simp [neg_div]

theorem sign_mul_sign (p q : Bool) (x y : Rat) :
    (if p then -1 else 1) * x * ((if q then -1 else 1) * y) = (if p ^^ q then -1 else 1) * (x * y) := by
  cases p <;> cases q <;> simp

theorem sign_div_sign (p q : Bool) (x y : Rat) :
    (if p then -1 else 1) * x / ((if q then -1 else 1) * y) = (if p ^^ q then -1 else 1) * (x / y) := by
  cases p <;> cases q <;> simp [neg_div, div_neg]

theorem value_mul (a b : Word) :
    value a * value b =
      (if signBit a ^^ signBit b then -1 else 1) * ((mag a * mag b : Nat) / (unitsPerOne * unitsPerOne)) := by
  rw [value_eq_sign_mul a, value_eq_sign_mul b, sign_mul_sign, div_mul_div_comm, Nat.cast_mul]

theorem value_div (a b : Word) :
    value a / value b =
      (if signBit a ^^ signBit b then -1 else 1) * ((mag a * unitsPerOne : Nat) / (mag b * unitsPerOne)) := by
  have hU := unitsPerOne_pos_rat.ne'
  rw [value_eq_sign_mul a, value_eq_sign_mul b, sign_div_sign, div_div_div_cancel_right₀ hU, Nat.cast_mul,
    mul_div_mul_right _ _ hU]

theorem mag_pos (h : isZero a = false) : 0 < mag a := by
  rw [Nat.pos_iff_ne_zero, Ne, mag_eq_zero, h]
  exact Bool.false_ne_true

theorem fmul32_of_isZero_isInf (ha : isZero a = true) (hb : isInf b = true) : fmul32 a b = cNaN := by
  simp [fmul32, ha, hb]

/-- An infinite factor, the other one no NaN and no zero. -/
theorem fmul32_of_isInf_left (ha : isInf a = true) (hb : isNaN b = false) (hzb : isZero b = false) :
    fmul32 a b = if signBit a ^^ signBit b then negInf else posInf := by
  rw [← withSign_inf]
  simp [fmul32, ha, isNaN_of_isInf ha, isZero_of_isInf ha, hb, hzb]

theorem fmul32_of_isZero_or (ha : isFinite a = true) (hb : isFinite b = true) (h : isZero a = true ∨ isZero b = true) :
    fmul32 a b = if signBit a ^^ signBit b then negZero else posZero := by
  rw [fmul32_of_finite ha hb, if_pos (by simpa using h), withSign_zero]

theorem roundsTo_fmul32 (ha : isFinite a = true) (hb : isFinite b = true) (hza : isZero a = false)
    (hzb : isZero b = false) : RoundsTo (value a * value b) (fmul32 a b) := by
  rw [fmul32_of_nonzero ha hza hb hzb, value_mul]
  exact roundsTo_round32 _ (Nat.mul_pos (mag_pos hza) (mag_pos hzb)) unitsPerOne_pos

theorem fdiv32_of_isZero_both (ha : isZero a = true) (hb : isZero b = true) : fdiv32 a b = cNaN := by
  simp [fdiv32, ha, hb]

theorem fdiv32_of_isInf_both (ha : isInf a = true) (hb : isInf b = true) : fdiv32 a b = cNaN := by
  simp [fdiv32, ha, hb]

theorem fdiv32_by_zero (ha : isFinite a = true) (hza : isZero a = false) (hb : isZero b = true) :
    fdiv32 a b = if signBit a ^^ signBit b then negInf else posInf := by
  have hbf := isFinite_of_isZero hb
  rw [← withSign_inf]
  simp [fdiv32, isNaN_of_isFinite ha, isInf_of_isFinite ha, hza, isNaN_of_isFinite hbf, hb]

theorem fdiv32_by_isInf (ha : isFinite a = true) (hb : isInf b = true) :
    fdiv32 a b = if signBit a ^^ signBit b then negZero else posZero := by
  rw [← withSign_zero]
  simp [fdiv32, isNaN_of_isFinite ha, isInf_of_isFinite ha, isNaN_of_isInf hb, isZero_of_isInf hb, hb]

theorem roundsTo_fdiv32 (ha : isFinite a = true) (hb : isFinite b = true) (hza : isZero a = false)
    (hzb : isZero b = false) : RoundsTo (value a / value b) (fdiv32 a b) := by
  rw [fdiv32_of_nonzero ha hza hb hzb, value_div]
  exact roundsTo_round32 _ (Nat.mul_pos (mag_pos hza) unitsPerOne_pos) (mag_pos hzb)

/-- A divisor of magnitude at least 1 makes no finite number overflow: rounding is monotone (R192). -/
theorem isFinite_fdiv32_of_le_mag (ha : isFinite a = true) (hb : isFinite b = true) (hle : unitsPerOne ≤ mag b) :
    isFinite (fdiv32 a b) = true := by
  have hlow := (isFinite_iff a).1 ha
  have hpos : 0 < mag b := unitsPerOne_pos.trans_le hle
  have hzb : isZero b = false := by
    rw [← Bool.not_eq_true, ← mag_eq_zero]
    exact hpos.ne'
  rw [fdiv32_of_finite ha hb hzb]
  split_ifs
  · exact isFinite_of_isZero (isZero_withSign_zero _)
  · have hmono : roundMag (mag a * unitsPerOne) (mag b) ≤ roundMag (mag a) 1 :=
      roundMag_mono hpos one_pos (by rw [Nat.mul_one]; exact Nat.mul_le_mul_left _ hle)
    rw [mag_eq_patMag a, roundMag_exact_one hlow.le] at hmono
    rw [isFinite_iff, lowBits_round32, mag_eq_patMag a]
    omega

end

/-- Settles O47: one lemma per case of the rule; an infinite right factor by commutativity. -/
theorem multiplicationFollowsItsRule : Obligations.MultiplicationFollowsItsRule := by
  intro a b sg
  refine ⟨fmul32_nan, fmul32_of_isZero_isInf, fun ha hb => ?_, fmul32_of_isInf_left, fun hb ha hza => ?_,
    fmul32_of_isZero_or, fun ha hb hza hzb => ⟨roundsTo_fmul32 ha hb hza hzb, ?_⟩, fmul32_one_left⟩
  · rw [fmul32_comm, fmul32_of_isZero_isInf hb ha]
  · rw [fmul32_comm, fmul32_of_isInf_left hb ha hza, Bool.xor_comm]
  · exact (fmul32_sign (isNaN_of_isFinite ha) hb hzb).2

/-- The rate 1 converts to 1.0, and the conversion is monotone (R24, R192). -/
theorem unitsPerOne_le_mag_SRf {rate : BitVec 32} (h : rate ≠ 0) : unitsPerOne ≤ mag (SRf rate) := by
  have hpos : 0 < rate.toNat := Nat.pos_of_ne_zero fun h0 => h (BitVec.eq_of_toNat_eq h0)
  have hone : patMag (roundMag unitsPerOne 1) = unitsPerOne := by decide
  rw [SRf, u32ToF32, roundUnits, mag_round32, Int.natAbs_natCast, ← hone, patMag_le, hone]
  exact roundMag_mono one_pos one_pos (Nat.mul_le_mul_right 1 (Nat.le_mul_of_pos_left _ hpos))

/-- Settles O48: one lemma per case of the rule, and `SRf` as a divisor of magnitude at least 1. -/
theorem divisionFollowsItsRule : Obligations.DivisionFollowsItsRule := by
  intro a b sg
  refine ⟨fdiv32_nan, fdiv32_of_isZero_both, fdiv32_of_isInf_both, fun ha hb => ?_, fdiv32_by_zero,
    fun ha hb hzb => ?_, fdiv32_by_isInf, fun ha hb hza hzb => ⟨roundsTo_fdiv32 ha hb hza hzb, ?_⟩,
    fun rate hrate => ⟨isFinite_SRf rate, ?_, fun ha => ?_⟩⟩
  · rw [fdiv32_of_isInf ha hb, withSign_inf]
  · rw [fdiv32_of_isZero ha hb hzb, withSign_zero]
  · exact (fdiv32_sign (isNaN_of_isFinite ha) hb hzb).2
  · rw [value_of_pos (signBit_SRf rate), le_div_iff₀ unitsPerOne_pos_rat, one_mul, Nat.cast_le]
    exact unitsPerOne_le_mag_SRf hrate
  · exact isFinite_fdiv32_of_le_mag ha (isFinite_SRf rate) (unitsPerOne_le_mag_SRf hrate)

/-! NaN results (R196) -/

section
variable {a b : Word}

theorem isNaN_fadd32_iff :
    isNaN (fadd32 a b) = true ↔
      isNaN a = true ∨ isNaN b = true ∨ (isInf a = true ∧ isInf b = true ∧ signBit a ≠ signBit b) := by
  simp only [fadd32, Bool.or_eq_true, Bool.and_eq_true]
  split_ifs with hnan hinf hs hia hib
  · exact iff_of_true isNaN_cNaN (by tauto)
  · exact iff_of_false (by simp [isNaN_of_isInf hinf.1]) (by tauto)
  · exact iff_of_true isNaN_cNaN (.inr (.inr ⟨hinf.1, hinf.2, hs⟩))
  · exact iff_of_false (by simp [isNaN_of_isInf hia]) (by tauto)
  · exact iff_of_false (by simp [isNaN_of_isInf hib]) (by tauto)
  · exact iff_of_false (by simp [isNaN_negZero]) (by tauto)
  · exact iff_of_false (by simp [isNaN_posZero]) (by tauto)
  · exact iff_of_false (by simp) (by tauto)

/-- The tests of R194 and of R195, in their order: the first two give `cNaN`, the rest an infinity, a zero or a rounded
number. -/
theorem isNaN_result_iff {nan undefined inf zero : Bool} (sg : Bool) (num den : Nat) :
    isNaN (if nan then cNaN else if undefined then cNaN else if inf then withSign sg 0x7F800000
      else if zero then withSign sg 0 else round32 sg num den) = true ↔ nan = true ∨ undefined = true := by
  split_ifs with hnan hundefined
  · exact iff_of_true isNaN_cNaN (.inl hnan)
  · exact iff_of_true isNaN_cNaN (.inr hundefined)
  · exact iff_of_false (by simp [isNaN_withSign_inf]) (not_or.2 ⟨hnan, hundefined⟩)
  · exact iff_of_false (by simp [isNaN_withSign_zero]) (not_or.2 ⟨hnan, hundefined⟩)
  · exact iff_of_false (by simp) (not_or.2 ⟨hnan, hundefined⟩)

theorem isNaN_fmul32_iff :
    isNaN (fmul32 a b) = true ↔
      isNaN a = true ∨ isNaN b = true ∨ (isZero a = true ∧ isInf b = true) ∨ (isInf a = true ∧ isZero b = true) := by
  refine (isNaN_result_iff _ _ _).trans ?_
  rw [Bool.or_eq_true, Bool.or_eq_true, Bool.and_eq_true, Bool.and_eq_true, or_assoc]

theorem isNaN_fdiv32_iff :
    isNaN (fdiv32 a b) = true ↔
      isNaN a = true ∨ isNaN b = true ∨ (isZero a = true ∧ isZero b = true) ∨ (isInf a = true ∧ isInf b = true) := by
  refine (isNaN_result_iff _ _ _).trans ?_
  rw [Bool.or_eq_true, Bool.or_eq_true, Bool.and_eq_true, Bool.and_eq_true, or_assoc]

theorem isNaN_fsub32_iff :
    isNaN (fsub32 a b) = true ↔
      isNaN a = true ∨ isNaN b = true ∨ (isInf a = true ∧ isInf b = true ∧ signBit a = signBit b) := by
  rw [fsub32, isNaN_fadd32_iff, isNaN_negate, isInf_negate, signBit_negate, Bool.ne_not]

theorem fmul32_eq_cNaN (h : isNaN (fmul32 a b) = true) : fmul32 a b = cNaN := by
  obtain h | h | ⟨ha, hb⟩ | ⟨ha, hb⟩ := isNaN_fmul32_iff.1 h
  · exact fmul32_nan (.inl h)
  · exact fmul32_nan (.inr h)
  · exact fmul32_of_isZero_isInf ha hb
  · rw [fmul32_comm, fmul32_of_isZero_isInf hb ha]

theorem eq_cNaN_of_canonicalNaN {w : Word} (hc : canonicalNaN w = true) (h : isNaN w = true) : w = cNaN := by
  rwa [canonicalNaN, h, Bool.not_true, Bool.false_or, beq_iff_eq] at hc

end

/-- Settles O49: where each operation gives a NaN, and that it gives no NaN but `cNaN`. -/
theorem nanResultsAreCanonical : Obligations.NanResultsAreCanonical := fun a b =>
  ⟨isNaN_fadd32_iff, isNaN_fsub32_iff, isNaN_fmul32_iff, isNaN_fdiv32_iff,
    eq_cNaN_of_canonicalNaN (canonicalNaN_fadd32 a b), eq_cNaN_of_canonicalNaN (canonicalNaN_fadd32 a (negate b)),
    fmul32_eq_cNaN, eq_cNaN_of_canonicalNaN (canonicalNaN_fdiv32 a b)⟩

end Sys2Proof.Machine
end

section
/-! PROOFS of 44_float_arithmetic section 4 (R199 to R203): the exact remainder, the comparisons and the conversions. -/

namespace Sys2Proof.Machine

/-! The exact remainder (R199) -/

section
variable {a b : Word}

theorem truncate_natCast_div (m n : Nat) : truncate ((m : Rat) / n) = (m / n : Nat) := by
  rw [truncate, if_pos (by positivity), Rat.floor_natCast_div_natCast, Int.natCast_div]

theorem truncate_neg_natCast_div (m n : Nat) : truncate (-((m : Rat) / n)) = -(m / n : Nat) := by
  rw [truncate]
  split_ifs with h
  · have hzero : (m : Rat) / n = 0 := le_antisymm (by linarith) (by positivity)
    have hquot : ((m / n : Nat) : Int) = 0 := by
      rw [← truncate_natCast_div, hzero]
      rfl
    rw [hzero, hquot, neg_zero, Int.floor_zero, neg_zero]
  · rw [Int.ceil_neg, Rat.floor_natCast_div_natCast, Int.natCast_div]

/-- The truncated quotient of values is that of the magnitudes, under the sign of the quotient. -/
theorem truncate_value_div (hb : signBit b = false) :
    truncate (value a / value b) = (if signBit a then -1 else 1) * (mag a / mag b : Nat) := by
  rw [value_eq_sign_mul a, value_of_pos hb, mul_div_assoc, div_div_div_cancel_right₀ unitsPerOne_pos_rat.ne']
  cases signBit a
  · simp only [Bool.false_eq_true, if_false, one_mul, truncate_natCast_div]
  · simp only [if_true, neg_one_mul, truncate_neg_natCast_div]

theorem value_fremExact (hb : isFinite b = true) (hz : isZero b = false) (hs : signBit b = false) :
    value (fremExact a b) = value a - value b * truncate (value a / value b) := by
  have hdm : ((mag a % mag b : Nat) : Rat) = mag a - mag b * (mag a / mag b : Nat) := by
    rw [eq_sub_iff_add_eq, ← Nat.cast_mul, ← Nat.cast_add, Nat.mod_add_div]
  rw [truncate_value_div hs, value_eq_sign_mul, signBit_fremExact, mag_fremExact hb hz, hdm, value_eq_sign_mul a,
    value_of_pos hs]
  generalize mag a / mag b = q
  push_cast
  ring

theorem fremExact_of_mag_lt (hb : isFinite b = true) (hz : isZero b = false) (h : mag a < mag b) : fremExact a b = a :=
  word_eq_of_mag_eq (signBit_fremExact a b) (by rw [mag_fremExact hb hz, Nat.mod_eq_of_lt h])

end

/-- Settles O50: the sign and the magnitude of the remainder, read as a value. -/
theorem remainderIsExact : Obligations.RemainderIsExact := by
  intro a b _ hb h1 r
  have hU := unitsPerOne_pos_rat
  have hpos : 0 < value b := one_pos.trans_le h1
  have hzb : isZero b = false := by
    rw [← Bool.not_eq_true, ← units_eq_zero, ← value_eq_zero_iff]
    exact hpos.ne'
  have hsb : signBit b = false := by
    rw [← Bool.not_eq_true]
    exact fun hs => absurd ((units_neg_iff b).2 ⟨hs, hzb⟩) (not_lt.2 (value_nonneg_iff.1 hpos.le))
  have hvalue : value r = value a - value b * truncate (value a / value b) := value_fremExact hb hzb hsb
  refine ⟨hvalue, ?small, fun _ => signBit_fremExact a b, fun h => ?zero, fun h => ?floor, fun h => ?below⟩
  case small =>
    rw [abs_value, value_of_pos hsb, mag_fremExact hb hzb, div_lt_div_iff_of_pos_right hU, Nat.cast_lt]
    exact Nat.mod_lt _ (mag_pos hzb)
  case zero =>
    rw [value_eq_zero_iff, units_eq_zero] at h
    rw [eq_zero_of_isZero h, signBit_fremExact]
  case floor => rw [hvalue, truncate, if_pos (div_nonneg h hpos.le)]
  case below =>
    rw [abs_value, value_of_pos hsb, div_lt_div_iff_of_pos_right hU, Nat.cast_lt] at h
    exact congrArg value (fremExact_of_mag_lt hb hzb h)

/-! Comparisons (R200) -/

section
variable {a b : Word}

theorem value_lt_iff : value a < value b ↔ units a < units b := by
  rw [value, value, div_lt_div_iff_of_pos_right unitsPerOne_pos_rat, Int.cast_lt]

theorem value_le_iff : value a ≤ value b ↔ units a ≤ units b := by rw [← not_lt, value_lt_iff, not_lt]

theorem ltF_eq (ha : isNaN a = false) (hb : isNaN b = false) : ltF a b = decide (units a < units b) := by
  rw [ltF, ha, hb, Bool.not_false, Bool.true_and, Bool.true_and]

theorem gtF_eq (ha : isNaN a = false) (hb : isNaN b = false) : gtF a b = decide (units b < units a) := ltF_eq hb ha

theorem eqF_eq (ha : isNaN a = false) (hb : isNaN b = false) : eqF a b = decide (units a = units b) := by
  rw [eqF, ha, hb, Bool.not_false, Bool.true_and, Bool.true_and]

theorem geF_eq (ha : isNaN a = false) (hb : isNaN b = false) : geF a b = decide (units b ≤ units a) := by
  rw [geF, gtF_eq ha hb, eqF_eq ha hb, ← Bool.decide_or, decide_eq_decide]
  omega

theorem compare_of_isNaN (h : isNaN a = true ∨ isNaN b = true) :
    ltF a b = false ∧ gtF a b = false ∧ eqF a b = false ∧ geF a b = false := by
  obtain h | h := h <;> simp [ltF, gtF, eqF, geF, h]

/-- Every finite pattern is between the infinities, in units too. -/
theorem units_between_inf (h : isFinite a = true) : units negInf < units a ∧ units a < units posInf := by
  have hlt := mag_lt_of_isFinite h
  have habs := natAbs_units a
  have hpos : units posInf = (2 ^ 128 * unitsPerOne : Nat) := by decide
  have hneg : units negInf = -(2 ^ 128 * unitsPerOne : Nat) := by decide
  omega

theorem units_negInf_lt_posInf : units negInf < units posInf := by decide

/-- What is no NaN is an infinity or finite. -/
theorem eq_inf_or_isFinite (h : isNaN a = false) : a = negInf ∨ a = posInf ∨ isFinite a = true := by
  by_cases hi : isInf a = true
  · have heq := eq_inf_of_isInf hi
    cases hs : signBit a <;> simp only [hs, Bool.false_eq_true, if_false, if_true] at heq
    · exact .inr (.inl heq)
    · exact .inl heq
  · exact .inr (.inr (isFinite_of_not h (by simpa using hi)))

/-- The numeric values, infinities included, are in the order of the units. -/
theorem extendedValue_lt_iff (ha : isNaN a = false) (hb : isNaN b = false) :
    extendedValue a < extendedValue b ↔ units a < units b := by
  have hinf := units_negInf_lt_posInf
  obtain rfl | rfl | hfa := eq_inf_or_isFinite ha <;> obtain rfl | rfl | hfb := eq_inf_or_isFinite hb
  · simp
  · simpa using hinf
  · simpa [extendedValue_of_isFinite hfb] using (units_between_inf hfb).1
  · simpa using hinf.le
  · simp
  · simpa [extendedValue_of_isFinite hfb] using (units_between_inf hfb).2.le
  · simpa [extendedValue_of_isFinite hfa] using (units_between_inf hfa).1.le
  · simpa [extendedValue_of_isFinite hfa] using (units_between_inf hfa).2
  · rw [extendedValue_of_isFinite hfa, extendedValue_of_isFinite hfb, EReal.coe_lt_coe_iff, Rat.cast_lt, value_lt_iff]

theorem extendedValue_le_iff (ha : isNaN a = false) (hb : isNaN b = false) :
    extendedValue a ≤ extendedValue b ↔ units a ≤ units b := by
  rw [← not_lt, extendedValue_lt_iff hb ha, not_lt]

theorem extendedValue_inj (ha : isNaN a = false) (hb : isNaN b = false) :
    extendedValue a = extendedValue b ↔ units a = units b := by
  rw [le_antisymm_iff, extendedValue_le_iff ha hb, extendedValue_le_iff hb ha, ← le_antisymm_iff]

/-- All four comparisons of a smaller with a larger, and of the larger with the smaller. -/
theorem compare_of_units_lt (ha : isNaN a = false) (hb : isNaN b = false) (h : units a < units b) :
    (ltF a b = true ∧ gtF a b = false ∧ eqF a b = false ∧ geF a b = false) ∧
      ltF b a = false ∧ gtF b a = true ∧ eqF b a = false ∧ geF b a = true := by
  simp [ltF_eq, gtF_eq, eqF_eq, geF_eq, ha, hb, h, h.le, h.ne, h.ne']

end

/-- Settles O51: each comparison is one of units, and the values are in the order of the units. -/
theorem comparisonsAreByValue : Obligations.ComparisonsAreByValue := by
  intro a b
  refine ⟨compare_of_isNaN, fun hfa hfb => ?finite, fun ha hb => ?extended, fun hf => ?infinities, by decide,
    by decide, by decide, by decide, by decide, by decide⟩
  case finite =>
    have ha := isNaN_of_isFinite hfa
    have hb := isNaN_of_isFinite hfb
    rw [ltF_eq ha hb, gtF_eq ha hb, eqF_eq ha hb, geF_eq ha hb]
    simp only [value_lt_iff, value_le_iff, value_inj, and_self]
  case extended =>
    rw [ltF_eq ha hb, gtF_eq ha hb, eqF_eq ha hb, geF_eq ha hb, extendedValue_lt_iff ha hb,
      extendedValue_lt_iff hb ha, extendedValue_inj ha hb, extendedValue_le_iff hb ha]
    simp only [decide_eq_true_iff, and_self]
  case infinities =>
    have hnan := isNaN_of_isFinite hf
    obtain ⟨hlow, hhigh⟩ := units_between_inf hf
    simp only [compare_of_units_lt (by decide) hnan hlow, compare_of_units_lt hnan (by decide) hhigh, and_self]

/-! Conversions (R201 to R203) -/

theorem u32ToF32_zero : u32ToF32 0#32 = posZero := by decide

theorem roundsTo_u32ToF32 {u : BitVec 32} (h : u ≠ 0) : RoundsTo (u.toNat : Rat) (u32ToF32 u) := by
  have hpos : 0 < u.toNat := Nat.pos_of_ne_zero fun h0 => h (BitVec.eq_of_toNat_eq h0)
  have hx := roundsTo_roundUnits (x := (u.toNat * unitsPerOne : Nat)) (by
    have := Nat.mul_pos hpos unitsPerOne_pos
    omega)
  rwa [Int.cast_natCast, Nat.cast_mul, mul_div_cancel_right₀ _ unitsPerOne_pos_rat.ne'] at hx

/-- At most 24 significant digits are not rounded. A number below `2^32` other than zero ends in fewer than 32 zeros. -/
theorem value_u32ToF32_of_exact {u : BitVec 32} {c j : Nat} (hc : c < 2 ^ 24) (h : u.toNat = c * 2 ^ j) :
    value (u32ToF32 u) = u.toNat := by
  rcases Nat.eq_zero_or_pos c with rfl | hpos
  · obtain rfl : u = 0#32 := BitVec.eq_of_toNat_eq (by rw [h, Nat.zero_mul]; rfl)
    rw [u32ToF32_zero, value_posZero]
    rfl
  have hj : j < 32 := by
    rw [← Nat.pow_lt_pow_iff_right one_lt_two]
    exact ((Nat.le_mul_of_pos_left _ hpos).trans_eq h.symm).trans_lt u.isLt
  have hexact : units (u32ToF32 u) = (u.toNat * unitsPerOne : Nat) := by
    refine units_roundUnits_of_exact (c := c) (j := j + 149) ?_ hc (by omega)
    rw [Int.natAbs_natCast, h, unitsPerOne, pow_add, Nat.mul_assoc]
  rw [value, hexact, Int.cast_natCast, Nat.cast_mul, mul_div_cancel_right₀ _ unitsPerOne_pos_rat.ne']

/-- Settles O52: rounding and exactness in units, and the rule's examples by evaluation. -/
theorem rateConversionIsRounded : Obligations.RateConversionIsRounded := by
  refine ⟨u32ToF32_zero, fun _ => roundsTo_u32ToF32, fun _ _ _ => value_u32ToF32_of_exact, fun u hle => ?_, by decide,
    by decide, by decide, by decide, by decide, by decide⟩
  rcases Nat.lt_or_eq_of_le hle with hlt | heq
  · exact value_u32ToF32_of_exact (j := 0) hlt (by rw [pow_zero, Nat.mul_one])
  · exact value_u32ToF32_of_exact (c := 1) (j := 24) (by decide) (by rw [heq, Nat.one_mul])

theorem value_idxToF32 {i : Nat} (h : i < 2 ^ 24) : value (idxToF32 i) = i := by
  rw [value_of_pos (signBit_idxToF32 i), mag_idxToF32 h, Nat.cast_mul, mul_div_cancel_right₀ _ unitsPerOne_pos_rat.ne']

/-- The legal phases (R22) as values. -/
theorem legalPhase_iff_value {n : Nat} (hn : legalSize n) (x : Word) :
    legalPhase n x = true ↔ x = cNaN ∨ (isFinite x = true ∧ signBit x = false ∧ value x < n) := by
  rw [legalPhase_iff hn]
  refine or_congr_right (and_congr_right fun _ => and_congr_right fun hs => ?_)
  rw [value_of_pos hs, div_lt_iff₀ unitsPerOne_pos_rat, ← Nat.cast_mul, Nat.cast_lt]

theorem f32ToIdx_of_illegal {n : Nat} {x : Word} (h : legalPhase n x = false) :
    f32ToIdx n x = .error .illegalPhase := by
  rw [f32ToIdx, h, if_neg Bool.false_ne_true]

/-- Settles O53: the index of a legal phase is `baseIndex`, and the legal phases are the two kinds of R22. -/
theorem indexConversionsAreExact : Obligations.IndexConversionsAreExact := by
  refine ⟨fun i hi => ?index, fun n x h1 h2 => ⟨fun hx => ?nan, fun hf hs hlt => ?floor, fun hne hx => ?other⟩⟩
  case index =>
    have hlt : i < 2 ^ 24 := by omega
    exact ⟨value_idxToF32 hlt, isFinite_idxToF32 hlt, signBit_idxToF32 i⟩
  all_goals
    have hn : legalSize n := ⟨h1, h2⟩
    have hlegal := legalPhase_iff_value hn x
  case nan => rw [f32ToIdx_of_legal (hlegal.2 (.inl hx)), hx, baseIndex_cNaN]
  case floor =>
    have hp := hlegal.2 (.inr ⟨hf, hs, hlt⟩)
    refine ⟨baseIndex x, f32ToIdx_of_legal hp, ?_, Nat.le_sub_one_of_lt (baseIndex_lt hn hp)⟩
    rw [floor_value hs, baseIndex_of_isFinite hf]
  case other =>
    refine f32ToIdx_of_illegal ?_
    rw [← Bool.not_eq_true, hlegal]
    exact not_or.2 ⟨hne, hx⟩

/-- Settles O32: `Lerp` asks `f32_to_idx` first. -/
theorem getStopsOnIllegalPhase : Obligations.GetStopsOnIllegalPhase := fun _ => execGet_of_illegal

end Sys2Proof.Machine
end

section
/-! PROOFS of 60_exceptions: which words raise an error and what a step on one leaves, the block between commands, and
several blocks side by side. -/

namespace Sys2Proof.Machine

/-! The errors of a word (R222, R223) -/

theorem decode_eq_wrt_iff {w : Command} {idx : Index} {data : Word} :
    decode w = .ok (.wrt idx data) ↔
      rsvField w = 0 ∧ opField w = 0b011#3 ∧ idx = idxField w ∧ data = dataField w := by
  constructor
  · intro h
    obtain rfl := encode_of_decode h
    obtain ⟨hop, hrsv, hidx, hdata⟩ := Laws.fields_packFields 0b011#3 0 idx data
    exact ⟨hrsv, hop, hidx.symm, hdata.symm⟩
  · rintro ⟨hrsv, hop, rfl, rfl⟩
    exact decode_wrt hrsv hop

/-- A word raises ILLEGAL_CMD where the decoder fails, BAD_INDEX where it reads an out-of-range WRT, and no other error. -/
theorem errorOf_eq_some_iff {n : Nat} {w : Command} {e : CommandError} :
    errorOf n w = some e ↔
      ((∃ d, decode w = .error d) ∧ e = .illegalCmd) ∨
      ∃ idx data, decode w = .ok (.wrt idx data) ∧ n ≤ idx.toNat ∧ e = .badIndex idx := by
  unfold errorOf decodeFor
  cases hd : decode w with
  | error d => simp [eq_comm]
  | ok i =>
    cases i with
    | get => simp
    | setf hz => simp
    | wrt idx data =>
      by_cases hidx : n ≤ idx.toNat
      · simp [hidx, eq_comm]
      · simp [hidx]

theorem errorOf_eq_badIndex_iff {n : Nat} {w : Command} {idx : Index} :
    errorOf n w = some (.badIndex idx) ↔
      rsvField w = 0 ∧ opField w = 0b011#3 ∧ idx = idxField w ∧ n ≤ (idxField w).toNat := by
  simp only [errorOf_eq_some_iff, decode_eq_wrt_iff, reduceCtorEq, and_false, false_or, CommandError.badIndex.injEq]
  constructor
  · rintro ⟨_, _, ⟨hrsv, hop, rfl, _⟩, hn, hidx⟩
    exact ⟨hrsv, hop, hidx, hn⟩
  · rintro ⟨hrsv, hop, hidx, hn⟩
    exact ⟨_, _, ⟨hrsv, hop, rfl, rfl⟩, hn, hidx⟩

/-! What an erroneous word leaves (R221) -/

theorem runCommand_of_errorOf {s : State} {w : Command} {e : CommandError} (he : errorOf s.cfg.tableSize w = some e) :
    runCommand w s = .next (s.raise e) := by
  obtain ⟨⟨d, hd⟩, rfl⟩ | ⟨idx, data, hd, hidx, rfl⟩ := errorOf_eq_some_iff.1 he
  · exact runCommand_of_error hd s
  · exact (runCommand_of_ok hd s).trans (execWrt_of_le data hidx)

/-- The step at an edge that presents an erroneous word: the edge's delivery, then the word's own response. -/
theorem step_of_errorOf {s : State} {w : Command} {rdy : Bool} {rest : List PortEdge} {e : CommandError}
    (hl : s.cfg.legal = true) (hi : s.inputs = { rst := false, cmd := some w, rspReady := rdy } :: rest)
    (he : errorOf s.cfg.tableSize w = some e) :
    step s = .next { s with inputs := rest, responses := remaining s rdy ++ [e.response] } := by
  rw [step_of_command hl hi, takeResponse_eq]
  exact runCommand_of_errorOf he

theorem exec_wrt_answers_ok {s : State} {idx : Index} (data : Word) (hidx : idx.toNat < s.cfg.tableSize) :
    ∃ t, exec (.wrt idx data) s = .next t ∧ t.responses = s.responses ++ [⟨.ok, 0⟩] :=
  ⟨_, execWrt_of_lt data hidx, rfl⟩

/-- Settles O20: BAD_INDEX is the range test of a decoded WRT, and an index has 16 bits, so that none is outside a table
of 65536 entries. -/
theorem badIndexAnswered : Obligations.BadIndexAnswered := by
  refine ⟨fun s w rdy rest hl hi hrsv hop hidx => ?raised, fun n w idx => errorOf_eq_badIndex_iff,
    fun s idx data => exec_wrt_answers_ok data, fun s idx data hn => ?fullTable, fun w idx h => ?noneRaised,
    fun s t h => ?get, fun s t hz h => ?setf⟩
  case raised => exact step_of_errorOf hl hi (errorOf_eq_badIndex_iff.2 ⟨hrsv, hop, rfl, hidx⟩)
  case fullTable => exact exec_wrt_answers_ok data (hn ▸ idx.isLt)
  case noneRaised =>
    obtain ⟨-, -, -, hidx⟩ := errorOf_eq_badIndex_iff.1 h
    exact absurd (idxField w).isLt (not_lt.2 hidx)
  case get =>
    obtain ⟨sample, -, rfl⟩ := execGet_next h
    exact ⟨sample, rfl⟩
  case setf =>
    cases h
    exact ⟨0, rfl⟩

/-- Settles O21: by induction on the words; each leaves the state of `step_of_errorOf`, from which the rest run. -/
theorem erroneousWordsLeaveNoTrace : Obligations.ErroneousWordsLeaveNoTrace := by
  intro ws
  induction ws with
  | nil =>
    intro s rest _ hi _
    obtain rfl : s.inputs = rest := hi
    rw [List.filterMap_nil, List.append_nil]
    rfl
  | cons w ws ih =>
    intro s rest hl hi herr
    rw [List.forall_mem_cons] at herr
    obtain ⟨hw, hws⟩ := herr
    obtain ⟨e, he⟩ := Option.ne_none_iff_exists'.1 hw
    have hstep := step_of_errorOf (rest := ws.map commandEdge ++ rest) hl hi he
    rw [List.filterMap_cons_some (by rw [he]; rfl), List.append_cons]
    exact (run_succ_of_step core ws.length hstep).trans (ih _ rest hl rfl hws)

/-! The block between commands (R231) -/

theorem step_of_noCommand {s : State} {rdy : Bool} {rest : List PortEdge} (hl : s.cfg.legal = true)
    (hi : s.inputs = { rst := false, cmd := none, rspReady := rdy } :: rest) :
    step s = .next { s with inputs := rest, responses := remaining s rdy } := by
  rw [step_of_cons hl hi, runEdge, if_neg Bool.false_ne_true, takeResponse_eq]
  rfl

/-- Settles O11: an edge without a command is its delivery, which takes the oldest response if the host is ready. -/
theorem idleBlockHoldsItsState : Obligations.IdleBlockHoldsItsState := by
  intro s hl
  refine ⟨step_of_nil hl, fun r later rest hi hr => ?delivered, fun rest hi hr => ?noneLeft,
    fun rest hi => step_of_noCommand hl hi⟩
  case delivered => rw [step_of_noCommand hl hi, remaining_ready, hr, List.tail_cons]
  case noneLeft => rw [step_of_noCommand hl hi, remaining_ready, hr, List.tail_nil, ← hr]

/-! Several blocks (R230) -/

/-- Everything a step of one block among several can have done: with no block `k` nothing steps, else block `k` takes its
own step and is the only one replaced. -/
theorem stepBlock_next {k : Nat} {ss ts : List State} (h : stepBlock k ss = .next ts) :
    (ss[k]? = none ∧ ts = ss) ∨ ∃ s t, ss[k]? = some s ∧ step s = .next t ∧ ts = ss.set k t := by
  induction ss generalizing k ts with
  | nil =>
    rw [stepBlock] at h
    cases h
    exact .inl ⟨rfl, rfl⟩
  | cons s ss ih =>
    cases k with
    | zero =>
      rw [stepBlock] at h
      split at h <;> cases h
      next t ht => exact .inr ⟨s, t, rfl, ht, rfl⟩
    | succ k =>
      rw [stepBlock] at h
      split at h <;> cases h
      next ts hts =>
        obtain ⟨hk, rfl⟩ | ⟨u, t, hk, ht, rfl⟩ := ih hts
        · exact .inl ⟨hk, rfl⟩
        · exact .inr ⟨u, t, hk, ht, rfl⟩

/-- Settles O58: a step of block `k` is at most a replacement of entry `k` by the result of that block's own step. -/
theorem blocksAreIndependent : Obligations.BlocksAreIndependent := by
  intro k ss ts h
  obtain ⟨hk, rfl⟩ | ⟨s, t, hk, ht, rfl⟩ := stepBlock_next h
  · refine ⟨rfl, fun _ _ => rfl, fun s hs => ?_⟩
    cases hk.symm.trans hs
  · refine ⟨List.length_set, fun j hj => List.getElem?_set_ne hj.symm, fun u hu => ?_⟩
    cases hk.symm.trans hu
    exact ⟨t, ht, List.getElem?_set_self (List.getElem?_eq_some_iff.1 hk).1⟩

end Sys2Proof.Machine
end

section
/-! PROOFS of 70_reset_and_hazards: when a SETF first shows. -/

namespace Sys2Proof.Machine

theorem getLast?_respond (s : State) (st : Status) (d : Word) : (s.respond st d).responses.getLast? = some ⟨st, d⟩ :=
  List.getLast?_concat

theorem lerp_respond (s : State) (st : Status) (d : Word) : (s.respond st d).lerp = s.lerp := rfl

/-- A SETF does not show in the sample of the state it leaves: `Lerp` reads no increment and no response (R256). -/
theorem lerp_of_exec_setf {s t : State} {hz : Word} (h : exec (.setf hz) s = .next t) : t.lerp = s.lerp := by
  cases h
  rw [lerp_respond, lerp_with_phaseIncrement]

/-- Settles O30: both GETs answer the one sample of the old phase, and each advances by the increment its state holds. -/
theorem setfFirstUsedInNextAdvance : Obligations.SetfFirstUsedInNextAdvance := by
  intro s hz hl hp
  have hold : s.lerp = .ok s.sample := lerp_of_legal (legalSize_of_legal hl) hp
  have hnew := (lerp_of_exec_setf (hz := hz) rfl).trans hold
  refine ⟨_, _, _, rfl, execGet_of_lerp hnew, execGet_of_lerp hold, ?sample, rfl, rfl⟩
  case sample => rw [getLast?_respond, getLast?_respond]

end Sys2Proof.Machine
end
